-- ==== Sys2Proof/Word.lean ====
section
/-! DEFINITION. Words, and the closed sets of names an instruction field can select (rules R6, R21, R22, R25,
R26, R202). -/

namespace Sys2Proof

/-- A memory word, a register, an instruction, a 16-bit address (R4, R6). -/
abbrev Word := BitVec 16

/-- Half a word: the unit the model's memory cells hold (assumption log 1). -/
abbrev Byte := BitVec 8

/-- The four general registers GPR[0] to GPR[3] (R21). -/
inductive Gpr where
  | r0 | r1 | r2 | r3
  deriving DecidableEq, Repr

/-- The three index registers IXR[0] to IXR[2], by storage index (R22). -/
inductive Ixr where
  | i0 | i1 | i2
  deriving DecidableEq, Repr

/-- The 2-bit `ix` field: value 0 selects no index register, 1 to 3 select one (R22, R134). -/
inductive IndexSel where
  | noIndex | x1 | x2 | x3
  deriving DecidableEq, Repr

/-- The four condition codes, in the order that numbers them for JCC (R25). -/
inductive CcFlag where
  | ov | uf | dz | eq
  deriving DecidableEq, Repr

/-- The four machine-fault flags (R26). -/
inductive MfrFlag where
  | oob | iop | itr | rsv
  deriving DecidableEq, Repr

/-- The `L_R` bit: 0 right, 1 left (R202). -/
inductive ShiftDir where
  | right | left
  deriving DecidableEq, Repr

/-- The `A_L` bit: 0 arithmetic, 1 logical (R202). -/
inductive ShiftMode where
  | arithmetic | logical
  deriving DecidableEq, Repr

/-- One OUT event as the host observes it: the device id and the word sent (R211, R215). -/
structure OutEvent where
  dev : Nat
  value : Word
  deriving DecidableEq, Repr

end Sys2Proof
end

