-- ==== Sys2Proof/Syntax.lean ====
section
/-! DEFINITION. The abstract syntax: one constructor per row of spec/opcode_table.json, its operands the fields of
the row's format (R91 to R100). Register and selector fields are names; the numeric fields `address`,
`immediate`, `devID`, `count` and `code` are the unsigned numbers of R104, and WellFormed holds the range
check R106 that an encoder makes of them. -/

namespace Sys2Proof

/-- The 30 instructions of R1. The indirect bit `i` is a `Bool`. -/
inductive Instr where
  /-- HLT, format HLT (R99, R213). -/
  | hlt
  /-- LDR r,x,address[,I], format MR (R92, R150). -/
  | ldr (r : Gpr) (x : IndexSel) (i : Bool) (address : Nat)
  /-- STR r,x,address[,I], format MR (R151). -/
  | str (r : Gpr) (x : IndexSel) (i : Bool) (address : Nat)
  /-- LDA r,x,address[,I], format MR (R152). -/
  | lda (r : Gpr) (x : IndexSel) (i : Bool) (address : Nat)
  /-- AMR r,x,address[,I], format MR (R181). -/
  | amr (r : Gpr) (x : IndexSel) (i : Bool) (address : Nat)
  /-- SMR r,x,address[,I], format MR (R182). -/
  | smr (r : Gpr) (x : IndexSel) (i : Bool) (address : Nat)
  /-- AIR r,immed, format IM (R94, R183). -/
  | air (r : Gpr) (immediate : Nat)
  /-- SIR r,immed, format IM (R184). -/
  | sir (r : Gpr) (immediate : Nat)
  /-- JZ r,x,address[,I], format MR (R160). -/
  | jz (r : Gpr) (x : IndexSel) (i : Bool) (address : Nat)
  /-- JNE r,x,address[,I], format MR (R161). -/
  | jne (r : Gpr) (x : IndexSel) (i : Bool) (address : Nat)
  /-- JCC cc,x,address[,I], format MR with the flag selector in the `reg` field (R92, R162). -/
  | jcc (cc : CcFlag) (x : IndexSel) (i : Bool) (address : Nat)
  /-- JMA x,address[,I], format XR (R93, R163). -/
  | jma (x : IndexSel) (i : Bool) (address : Nat)
  /-- JSR x,address[,I], format XR (R164). -/
  | jsr (x : IndexSel) (i : Bool) (address : Nat)
  /-- RFS immed, format RFS (R95, R165). -/
  | rfs (immediate : Nat)
  /-- SOB r,x,address[,I], format MR (R166). -/
  | sob (r : Gpr) (x : IndexSel) (i : Bool) (address : Nat)
  /-- JGE r,x,address[,I], format MR (R167). -/
  | jge (r : Gpr) (x : IndexSel) (i : Bool) (address : Nat)
  /-- MLT rx,ry, format RR (R96, R185). -/
  | mlt (rx ry : Gpr)
  /-- DVD rx,ry, format RR (R186). -/
  | dvd (rx ry : Gpr)
  /-- TRR rx,ry, format RR (R187). -/
  | trr (rx ry : Gpr)
  /-- AND rx,ry, format RR (R188). -/
  | and (rx ry : Gpr)
  /-- ORR rx,ry, format RR (R189). -/
  | orr (rx ry : Gpr)
  /-- NOT rx, format RR with the `ry` field unused (R96, R190). -/
  | not (rx : Gpr)
  /-- TRAP code, format TRAP (R100, R214). -/
  | trap (code : Nat)
  /-- SRC r,count,L_R,A_L, format SH (R97, R200). -/
  | src (r : Gpr) (mode : ShiftMode) (dir : ShiftDir) (count : Nat)
  /-- RRC r,count,L_R,A_L, format SH (R97, R201). -/
  | rrc (r : Gpr) (mode : ShiftMode) (dir : ShiftDir) (count : Nat)
  /-- LDX x,address[,I], format XR (R93, R153). -/
  | ldx (x : IndexSel) (i : Bool) (address : Nat)
  /-- STX x,address[,I], format XR (R154). -/
  | stx (x : IndexSel) (i : Bool) (address : Nat)
  /-- IN r,devid, format IO (R98, R210). -/
  | inp (r : Gpr) (dev : Nat)
  /-- OUT r,devid, format IO (R211). -/
  | out (r : Gpr) (dev : Nat)
  /-- CHK r,devid, format IO (R212). -/
  | chk (r : Gpr) (dev : Nat)
  deriving DecidableEq, Repr

end Sys2Proof
end

