-- ==== Sys2Proof/WellFormed.lean ====
section
/-! DEFINITION. The encoder's range check on the numeric operands (R104, R106): `address`, `immediate` and `devID`
are 0 .. 31, `count` and `code` are 0 .. 15. The decoder only yields instructions that pass it. -/

namespace Sys2Proof

/-- `value` fits unsigned in `width` bits (R106). -/
def fitsUnsigned (value width : Nat) : Bool := decide (value < 2 ^ width)

/-- Every numeric operand fits its field. -/
def Instr.wellFormed : Instr → Bool
  | .hlt => true
  | .ldr _ _ _ a | .str _ _ _ a | .lda _ _ _ a | .amr _ _ _ a | .smr _ _ _ a => fitsUnsigned a 5
  | .jz _ _ _ a | .jne _ _ _ a | .jcc _ _ _ a | .sob _ _ _ a | .jge _ _ _ a => fitsUnsigned a 5
  | .jma _ _ a | .jsr _ _ a | .ldx _ _ a | .stx _ _ a => fitsUnsigned a 5
  | .air _ m | .sir _ m | .rfs m => fitsUnsigned m 5
  | .mlt _ _ | .dvd _ _ | .trr _ _ | .and _ _ | .orr _ _ | .not _ => true
  | .trap code => fitsUnsigned code 4
  | .src _ _ _ n | .rrc _ _ _ n => fitsUnsigned n 4
  | .inp _ d | .out _ d | .chk _ d => fitsUnsigned d 5

end Sys2Proof
end

