-- ==== Sys2Proof/Decode.lean ====
section
/-! DEFINITION. The opcode map, the decoder and the encoder (R90 to R108). The map `OPC` is an argument of the decoder
and of the encoder (R5, R101); `decode` and `encode` are they at the default map. The decoder is total on words: it
reads the opcode in `w[15:10]`, and only then the fields of that opcode's format; unused bits are ignored. -/

namespace Sys2Proof

/-- The mnemonics of R1 and R101. -/
inductive Mnemonic where
  | HLT | LDR | STR | LDA | AMR | SMR | AIR | SIR | JZ | JNE | JCC | JMA | JSR | RFS | SOB | JGE
  | MLT | DVD | TRR | AND | ORR | NOT | TRAP | SRC | RRC | LDX | STX | IN | OUT | CHK
  deriving DecidableEq, Repr

/-- The instruction formats of R92 to R100. -/
inductive Format where
  | MR | XR | IM | RFS | RR | SH | IO | HLT | TRAP
  deriving DecidableEq, Repr

/-- Why the decoder gives no instruction: the opcode is not in `OPC` (R103). Safe: the step then does what R216
says of such a word. -/
inductive DecodeReject where
  | illegalOpcode (op : BitVec 6)
  deriving DecidableEq, Repr

/-- The encoder's `EncodingError` (R106). -/
inductive EncodingError where
  | outOfRange
  deriving DecidableEq, Repr

/-- All 30 mnemonics, in the order of the table of R101. -/
def Mnemonic.all : List Mnemonic :=
  [.HLT, .LDR, .STR, .LDA, .AMR, .SMR, .AIR, .SIR, .JZ, .JNE, .JCC, .JMA, .JSR, .RFS, .SOB, .JGE,
   .MLT, .DVD, .TRR, .AND, .ORR, .NOT, .TRAP, .SRC, .RRC, .LDX, .STX, .IN, .OUT, .CHK]

/-- What the parameter `OPC` is (R5, R101): a 6-bit number for each mnemonic. -/
abbrev OpcodeMap := Mnemonic → BitVec 6

/-- The constraint R5 puts on `OPC`: injective, and 0 for HLT. -/
def OpcodeMap.Legal (opc : OpcodeMap) : Prop := (∀ m m', opc m = opc m' → m = m') ∧ opc .HLT = 0

/-- The default of the parameter `OPC`: HLT is 0 in the source; the rest is the default table of R101 and
opcode_table.json. PRESUMED (D1, general knowledge), unsafe for a statement about the default machine. Assumption
log 5. -/
def Mnemonic.opc : OpcodeMap
  | .HLT => 0o00 | .LDR => 0o01 | .STR => 0o02 | .LDA => 0o03
  | .AMR => 0o04 | .SMR => 0o05 | .AIR => 0o06 | .SIR => 0o07
  | .JZ => 0o10 | .JNE => 0o11 | .JCC => 0o12 | .JMA => 0o13
  | .JSR => 0o14 | .RFS => 0o15 | .SOB => 0o16 | .JGE => 0o17
  | .MLT => 0o20 | .DVD => 0o21 | .TRR => 0o22 | .AND => 0o23
  | .ORR => 0o24 | .NOT => 0o25
  | .TRAP => 0o30 | .SRC => 0o31 | .RRC => 0o32
  | .LDX => 0o41 | .STX => 0o42
  | .IN => 0o61 | .OUT => 0o62 | .CHK => 0o63

/-- The format of each mnemonic (R92 to R100, R101). -/
def Mnemonic.format : Mnemonic → Format
  | .HLT => .HLT
  | .LDR | .STR | .LDA | .AMR | .SMR | .JZ | .JNE | .JCC | .SOB | .JGE => .MR
  | .LDX | .STX | .JMA | .JSR => .XR
  | .AIR | .SIR => .IM
  | .RFS => .RFS
  | .MLT | .DVD | .TRR | .AND | .ORR | .NOT => .RR
  | .SRC | .RRC => .SH
  | .IN | .OUT | .CHK => .IO
  | .TRAP => .TRAP

/-- The bits a word of each mnemonic leaves unused (R93 to R100; for NOT the `ry` field too, R96). -/
def Mnemonic.unusedMask (m : Mnemonic) : Word :=
  match m.format with
  | .MR => 0x0000
  | .XR => 0x0300
  | .IM => 0x00E0
  | .RFS => 0x03E0
  | .RR => if m = .NOT then 0x00FF else 0x003F
  | .SH => 0x0030
  | .IO => 0x00E0
  | .HLT => 0x03FF
  | .TRAP => 0x03F0

/-- The mnemonic an instruction term stands for. -/
def Instr.mnemonic : Instr → Mnemonic
  | .hlt => .HLT | .ldr .. => .LDR | .str .. => .STR | .lda .. => .LDA
  | .amr .. => .AMR | .smr .. => .SMR | .air .. => .AIR | .sir .. => .SIR
  | .jz .. => .JZ | .jne .. => .JNE | .jcc .. => .JCC | .jma .. => .JMA
  | .jsr .. => .JSR | .rfs .. => .RFS | .sob .. => .SOB | .jge .. => .JGE
  | .mlt .. => .MLT | .dvd .. => .DVD | .trr .. => .TRR | .and .. => .AND
  | .orr .. => .ORR | .not .. => .NOT | .trap .. => .TRAP | .src .. => .SRC
  | .rrc .. => .RRC | .ldx .. => .LDX | .stx .. => .STX | .inp .. => .IN
  | .out .. => .OUT | .chk .. => .CHK

/-! ## Fields (R91) -/

/-- The register a 2-bit field names: value `k` names GPR[k] (R21). -/
def Gpr.ofBits (b : BitVec 2) : Gpr :=
  if b = 0 then .r0 else if b = 1 then .r1 else if b = 2 then .r2 else .r3

/-- The field value that names a general register (R21). -/
def Gpr.toBits : Gpr → BitVec 2
  | .r0 => 0 | .r1 => 1 | .r2 => 2 | .r3 => 3

/-- The index selector a 2-bit field gives (R22). -/
def IndexSel.ofBits (b : BitVec 2) : IndexSel :=
  if b = 0 then .noIndex else if b = 1 then .x1 else if b = 2 then .x2 else .x3

/-- The field value of an index selector (R22). -/
def IndexSel.toBits : IndexSel → BitVec 2
  | .noIndex => 0 | .x1 => 1 | .x2 => 2 | .x3 => 3

/-- The condition code a JCC selector names: 0, 1, 2, 3 for OV, UF, DZ, EQ (R25, R162, D22). -/
def CcFlag.ofBits (b : BitVec 2) : CcFlag :=
  if b = 0 then .ov else if b = 1 then .uf else if b = 2 then .dz else .eq

/-- The JCC selector of a condition code (R25, R162). -/
def CcFlag.toBits : CcFlag → BitVec 2
  | .ov => 0 | .uf => 1 | .dz => 2 | .eq => 3

/-- `A_L`: 1 logical, 0 arithmetic (R202). -/
def ShiftMode.ofBit (b : Bool) : ShiftMode := if b then .logical else .arithmetic

/-- The `A_L` bit (R202). -/
def ShiftMode.toBit : ShiftMode → Bool
  | .arithmetic => false | .logical => true

/-- `L_R`: 1 left, 0 right (R202). -/
def ShiftDir.ofBit (b : Bool) : ShiftDir := if b then .left else .right

/-- The `L_R` bit (R202). -/
def ShiftDir.toBit : ShiftDir → Bool
  | .right => false | .left => true

/-- `opcode` = `w[15:10]`. -/
def opcodeField (w : Word) : BitVec 6 := w.extractLsb' 10 6
/-- `reg`, `rx` and the JCC selector = `w[9:8]`. -/
def regField (w : Word) : BitVec 2 := w.extractLsb' 8 2
/-- `ix`, `ry` = `w[7:6]`. -/
def ixField (w : Word) : BitVec 2 := w.extractLsb' 6 2
/-- `A_L` = `w[7]`. -/
def alField (w : Word) : Bool := w.getLsbD 7
/-- `L_R` = `w[6]`. -/
def lrField (w : Word) : Bool := w.getLsbD 6
/-- `i` = `w[5]`. -/
def indirectField (w : Word) : Bool := w.getLsbD 5
/-- `address`, `immediate`, `devID` = `w[4:0]`, unsigned (R104). -/
def addressField (w : Word) : Nat := (w.extractLsb' 0 5).toNat
/-- `count`, `code` = `w[3:0]`, unsigned (R104). -/
def countField (w : Word) : Nat := (w.extractLsb' 0 4).toNat

/-! ## Decoding (R102, R103) -/

/-- The mnemonic the map `opc` gives an opcode value to, or none (R102, R133). -/
def mnemonicIn (opc : OpcodeMap) (op : BitVec 6) : Option Mnemonic := Mnemonic.all.find? (fun m => opc m = op)

/-- The operands of a mnemonic, taken from the word at the positions of its format (R92 to R100). -/
def operandsOf (m : Mnemonic) (w : Word) : Instr :=
  let r := Gpr.ofBits (regField w)
  let y := Gpr.ofBits (ixField w)
  let x := IndexSel.ofBits (ixField w)
  let i := indirectField w
  let a := addressField w
  match m with
  | .HLT => .hlt
  | .LDR => .ldr r x i a
  | .STR => .str r x i a
  | .LDA => .lda r x i a
  | .AMR => .amr r x i a
  | .SMR => .smr r x i a
  | .AIR => .air r a
  | .SIR => .sir r a
  | .JZ => .jz r x i a
  | .JNE => .jne r x i a
  | .JCC => .jcc (CcFlag.ofBits (regField w)) x i a
  | .JMA => .jma x i a
  | .JSR => .jsr x i a
  | .RFS => .rfs a
  | .SOB => .sob r x i a
  | .JGE => .jge r x i a
  | .MLT => .mlt r y
  | .DVD => .dvd r y
  | .TRR => .trr r y
  | .AND => .and r y
  | .ORR => .orr r y
  | .NOT => .not r
  | .TRAP => .trap (countField w)
  | .SRC => .src r (ShiftMode.ofBit (alField w)) (ShiftDir.ofBit (lrField w)) (countField w)
  | .RRC => .rrc r (ShiftMode.ofBit (alField w)) (ShiftDir.ofBit (lrField w)) (countField w)
  | .LDX => .ldx x i a
  | .STX => .stx x i a
  | .IN => .inp r a
  | .OUT => .out r a
  | .CHK => .chk r a

/-- The decoder of a machine with the opcode map `opc`: every word is one instruction with its operands, or an
illegal opcode (R5, R102, R103, R133). -/
def decodeWith (opc : OpcodeMap) (w : Word) : Except DecodeReject Instr :=
  match mnemonicIn opc (opcodeField w) with
  | some m => .ok (operandsOf m w)
  | none => .error (.illegalOpcode (opcodeField w))

/-- The decoder with the default map (R101). -/
def decode (w : Word) : Except DecodeReject Instr := decodeWith Mnemonic.opc w

/-! ## Encoding (R106, R108) -/

/-- `toBinary(value, width)`: refuses a value that does not fit unsigned in `width` bits (R106). -/
def toBinary (value width : Nat) : Except EncodingError (BitVec width) :=
  if fitsUnsigned value width then .ok (BitVec.ofNat width value) else .error .outOfRange

/-- `enc_MR` (R92, R108), `op` being `OPC(m)` here and below; with `r = 00` it is `enc_XR` (R93). -/
def encMR (op : BitVec 6) (r : BitVec 2) (x : IndexSel) (a : Nat) (i : Bool) : Word :=
  ((((op ++ r : BitVec 8) ++ x.toBits : BitVec 10) ++ BitVec.ofBool i : BitVec 11) ++ BitVec.ofNat 5 a : BitVec 16)

/-- `enc_XR` (R93, R108). -/
def encXR (op : BitVec 6) (x : IndexSel) (a : Nat) (i : Bool) : Word := encMR op 0 x a i

/-- `enc_IM` (R94, R108) and `enc_IO` (R98, R108): the two formats lay their fields alike. -/
def encIM (op : BitVec 6) (r : BitVec 2) (imm : Nat) : Word :=
  (((op ++ r : BitVec 8) ++ (0 : BitVec 3) : BitVec 11) ++ BitVec.ofNat 5 imm : BitVec 16)

/-- `enc_RFS` (R95, R108). -/
def encRFS (op : BitVec 6) (imm : Nat) : Word :=
  ((op ++ (0 : BitVec 5) : BitVec 11) ++ BitVec.ofNat 5 imm : BitVec 16)

/-- `enc_RR` (R96, R108). -/
def encRR (op : BitVec 6) (rx ry : BitVec 2) : Word :=
  (((op ++ rx : BitVec 8) ++ ry : BitVec 10) ++ (0 : BitVec 6) : BitVec 16)

/-- `enc_SH` (R97, R108). -/
def encSH (op : BitVec 6) (r : BitVec 2) (count : Nat) (lr al : Bool) : Word :=
  (((((op ++ r : BitVec 8) ++ BitVec.ofBool al : BitVec 9) ++ BitVec.ofBool lr : BitVec 10) ++ (0 : BitVec 2) : BitVec 12)
    ++ BitVec.ofNat 4 count : BitVec 16)

/-- `enc_TRAP` (R100, R108). -/
def encTRAP (op : BitVec 6) (code : Nat) : Word :=
  ((op ++ (0 : BitVec 6) : BitVec 12) ++ BitVec.ofNat 4 code : BitVec 16)

/-- The canonical word of an instruction on a machine with the opcode map `opc` (R5, R108): unused bits 0. It is the
encoding of a well-formed instruction; `encodeCheckedWith` makes the range check first. -/
def encodeWith (opc : OpcodeMap) (i : Instr) : Word :=
  let op := opc i.mnemonic
  match i with
  | .hlt => 0
  | .ldr r x ind a | .str r x ind a | .lda r x ind a | .amr r x ind a | .smr r x ind a
  | .jz r x ind a | .jne r x ind a | .sob r x ind a | .jge r x ind a => encMR op r.toBits x a ind
  | .jcc c x ind a => encMR op c.toBits x a ind
  | .jma x ind a | .jsr x ind a | .ldx x ind a | .stx x ind a => encXR op x a ind
  | .air r m | .sir r m => encIM op r.toBits m
  | .rfs m => encRFS op m
  | .mlt rx ry | .dvd rx ry | .trr rx ry | .and rx ry | .orr rx ry => encRR op rx.toBits ry.toBits
  | .not rx => encRR op rx.toBits 0
  | .trap code => encTRAP op code
  | .src r al lr n | .rrc r al lr n => encSH op r.toBits n lr.toBit al.toBit
  | .inp r d | .out r d | .chk r d => encIM op r.toBits d

/-- The canonical word with the default map (R101). -/
def encode (i : Instr) : Word := encodeWith Mnemonic.opc i

/-- The encoder with the range check of R106 before it. -/
def encodeCheckedWith (opc : OpcodeMap) (i : Instr) : Except EncodingError Word :=
  if i.wellFormed then .ok (encodeWith opc i) else .error .outOfRange

/-- The encoder with the range check, with the default map. -/
def encodeChecked (i : Instr) : Except EncodingError Word := encodeCheckedWith Mnemonic.opc i

/-- The instruction the decoder reads from an instruction whose bits are `w`, given `nbits` of them and the
rest 0; every instruction is one word (R90), so only the first word is read. The map is the table's, the default. -/
def decodeTableWord (nbits w : Nat) : Option Instr :=
  match decode (BitVec.ofNat 16 (w % 2 ^ nbits)) with
  | .ok i => some i
  | .error _ => none

/-! ## Octal text (R105) -/

/-- `binaryToOctal`: six octal digits, most significant first; digit `k` from the right is `w[3k+2:3k]` and
the leftmost is `w[15]` alone. -/
def octalDigits (w : Word) : List Nat :=
  [w.toNat / 8 ^ 5, w.toNat / 8 ^ 4 % 8, w.toNat / 8 ^ 3 % 8, w.toNat / 8 ^ 2 % 8, w.toNat / 8 % 8, w.toNat % 8]

/-- The inverse of `octalDigits`: the word a string of octal digits spells. -/
def ofOctalDigits (ds : List Nat) : Word := BitVec.ofNat 16 (ds.foldl (fun acc d => 8 * acc + d) 0)

end Sys2Proof
end

