-- ==== Sys2Proof/Config.lean ====
section
/-! DEFINITION. What an implementation fixes (R5) and the free values the spec leaves open. -/

namespace Sys2Proof

/-- `MEM_WORDS` of the machine `State.reset` describes: the default of R5. PRESUMED (D11, general knowledge),
unsafe for a statement about `State.reset`; every other statement holds for every memory size, because the
memory carries its own size. Assumption log 2. -/
def Config.memWords : Nat := 2048

/-- `CACHE_LINES` of the machine `State.reset` describes: the default of R5. PRESUMED (D12, general knowledge),
unsafe for a statement about `State.reset`; every other statement holds for every number of lines. Assumption
log 3. -/
def Config.cacheLines : Nat := 16

/-- `OOB_SENTINEL`: what a refused read of the memory array delivers (R51, D13: open). A free value, safe:
nothing can be proved of it but that it is one fixed word. Assumption log 4. -/
opaque Config.oobSentinel : Word

/-- `DevIn` (R215): the word the host supplies at the `n`-th call of the device oracle, for a device id. A free
value: a fresh draw at every call, because `n` (State.draws) is never used twice in a run. Assumption log 10. -/
opaque Config.devIn : Nat → Nat → Word

/-- `DevStatus` (R215): the status word the host supplies at the `n`-th call of the device oracle, for a device
id. A free value, as `Config.devIn`. Assumption log 10. -/
opaque Config.devStatus : Nat → Nat → Word

end Sys2Proof
end

