-- ==== Sys2Proof/Machine/State.lean ====
section
/-! DEFINITION. The state of the machine, all of rule R20, as plain data; the reasons a step can stop; reset. -/

namespace Sys2Proof.Machine

/-- GPR[0..3] (R21). -/
structure GprFile where
  r0 : Word
  r1 : Word
  r2 : Word
  r3 : Word
  deriving DecidableEq, Repr

/-- IXR[0..2] (R22). -/
structure IxrFile where
  i0 : Word
  i1 : Word
  i2 : Word
  deriving DecidableEq, Repr

/-- The condition codes (R25). -/
structure CondCodes where
  ov : Bool
  uf : Bool
  dz : Bool
  eq : Bool
  deriving DecidableEq, Repr

/-- The machine-fault flags (R26). -/
structure FaultFlags where
  oob : Bool
  iop : Bool
  itr : Bool
  rsv : Bool
  deriving DecidableEq, Repr

/-- The memory array behind the cache (R30): `size` is MEM_WORDS, the length of the array; `cells` lists the
bytes that differ from the reset contents, by strictly rising address, word `a` being the bytes `2a` (high) and
`2a + 1` (low). DESIGN CHOICE, safe: no instruction sees a byte. Assumption log 1. -/
structure Memory where
  size : Nat
  cells : List Host.Cell
  deriving DecidableEq, Repr

/-- One cache line (R31). -/
structure Line where
  valid : Bool
  tag : BitVec 13
  block : Vector Word 8
  dirty : Bool
  deriving DecidableEq, Repr

/-- What a step reports to its caller when it ends without an error (R8): `continue` or `halt`. -/
inductive StepReport where
  | continues | halts
  deriving DecidableEq, Repr

/-- The state of R20, and three fields of the model's own (`draws`, `events`, `report`). -/
structure State where
  /-- GPR[0..3] (R21). -/
  gpr : GprFile
  /-- IXR[0..2] (R22). -/
  ixr : IxrFile
  /-- The program counter, 12 bits (R23). -/
  pc : BitVec 12
  /-- The instruction register (R24). -/
  ir : Word
  /-- Condition codes (R25). -/
  cc : CondCodes
  /-- Machine-fault flags (R26). -/
  mfr : FaultFlags
  /-- The memory array Mem (R30). -/
  mem : Memory
  /-- Line[0 .. CACHE_LINES-1]; its length is CACHE_LINES (R31). -/
  lines : List Line
  /-- The LRU order, least recently used line index at the head (R31). -/
  lru : List Nat
  /-- The model's own: how many times the device oracle has been called (R215). Assumption log 10. -/
  draws : Nat
  /-- The model's own: the OUT events the host has observed, oldest first (R211, R215). Assumption log 11. -/
  events : List OutEvent
  /-- The model's own: what the last step reported to its caller (R8). Not a halted latch: nothing reads it and
  every step starts by writing it (R32). Assumption log 12. -/
  report : StepReport
  deriving DecidableEq, Repr

/-- The errors of R233, which end a step with outcome `error(kind)`, and the same errors of the host's register
accessors (R27). `left` is the state the error leaves, which R138 defines: `ir` loaded, `pc` incremented, the
cache and `mfr.OOB` effects of the fetch and the resolver, and nothing of the handler. Assumption log 13. -/
inductive Fault where
  /-- Raised by LDX and STX with selector 0 (`index` is the selector) and by a register accessor called with an
  index out of range (`index` is that index). Safe: the spec ends the step here (R138, R233). -/
  | invalidRegister (index : Int) (left : State)
  /-- Raised by MLT and DVD when `rx` or `ry` is not GPR[0] or GPR[2] (R191). Safe: the spec ends the step here. -/
  | invalidRegisterPair (rx ry : Gpr) (left : State)
  deriving DecidableEq, Repr

/-- What the model gives no meaning to. -/
inductive Refusal where
  /-- Raised by an arm of `exec` whose instruction has no meaning yet. Safe: nothing can be proved of it. -/
  | notModelled (mnemonic : String)
  /-- Raised by the host operation `load` when a cache line is valid: the spec gives that case no meaning (R266,
  D36). Safe. -/
  | loadAfterExecution
  deriving DecidableEq, Repr

/-- A cache line that has never been filled. Its tag, block and dirty bit are unspecified while it is not valid
(R34); DESIGN CHOICE tag 0, words 0, clean (D16), safe: nothing reads them. Assumption log 8. -/
def Line.empty : Line := { valid := false, tag := 0, block := Vector.replicate 8 0, dirty := false }

/-- The reset state of a machine with `memWords` memory words and `cacheLines` cache lines (R34, R260): all
registers, flags and memory words 0, every line empty, LRU order 0, 1, ... Reset values are the spec's decisions
D15, D16 and D40; assumption log 6 to 9. -/
def State.resetOf (memWords cacheLines : Nat) : State where
  gpr := { r0 := 0, r1 := 0, r2 := 0, r3 := 0 }
  ixr := { i0 := 0, i1 := 0, i2 := 0 }
  pc := 0
  ir := 0
  cc := { ov := false, uf := false, dz := false, eq := false }
  mfr := { oob := false, iop := false, itr := false, rsv := false }
  mem := { size := memWords, cells := [] }
  lines := List.replicate cacheLines Line.empty
  lru := List.range cacheLines
  draws := 0
  events := []
  report := .continues

/-- The machine right after reset, at the default sizes of R5. -/
def State.reset : State := State.resetOf Config.memWords Config.cacheLines

end Sys2Proof.Machine
end

