-- ==== Sys2Proof/Machine/Memory.lean ====
section
/-! DEFINITION. The memory array Mem as plain data (R30, R50 to R52): bytes at addresses in one canonical form,
and words built from them in one place. -/

namespace Sys2Proof.Machine

/-- What an unlisted cell reads as: the reset contents of memory, 0 in every word (R34, D40). Assumption log 7. -/
def Memory.unlisted : Byte := 0

/-- The byte at a cell address, in a list of rising addresses. -/
def readCells : List Host.Cell → Nat → Byte
  | [], _ => Memory.unlisted
  | (k, b) :: rest, a => if a < k then Memory.unlisted else if a = k then b else readCells rest a

/-- Write one byte and keep the canonical form: writing what an unlisted cell reads as removes the entry. -/
def writeCells : List Host.Cell → Nat → Byte → List Host.Cell
  | [], a, v => if v = Memory.unlisted then [] else [(a, v)]
  | (k, b) :: rest, a, v =>
    if a < k then (if v = Memory.unlisted then (k, b) :: rest else (a, v) :: (k, b) :: rest)
    else if a = k then (if v = Memory.unlisted then rest else (a, v) :: rest)
    else (k, b) :: writeCells rest a v

/-- The canonical form of a list of cells: addresses rise strictly from `lo`, stay below `hi`, and no entry
equals what an unlisted cell reads as. -/
def cellsWf (lo hi : Nat) : List Host.Cell → Bool
  | [] => true
  | (k, b) :: rest =>
    decide (lo ≤ k) && decide (k < hi) && decide (b ≠ Memory.unlisted) && cellsWf (k + 1) hi rest

/-- The canonical form of the memory array, and the bounds of R5 on its size. -/
def Memory.wf (m : Memory) : Bool :=
  decide (1 ≤ m.size) && decide (m.size ≤ 65536) && cellsWf 0 (2 * m.size) m.cells

/-- The byte at cell address `k` (assumption log 1). -/
def Memory.byte (m : Memory) (k : Nat) : Byte := readCells m.cells k

/-- `Mem[a]` (R30): the high byte lies in the lower cell. -/
def Memory.word (m : Memory) (a : Nat) : Word := m.byte (2 * a) ++ m.byte (2 * a + 1)

/-- `Mem[a] <- v` (R52). -/
def Memory.setWord (m : Memory) (a : Nat) (v : Word) : Memory :=
  { m with cells := writeCells (writeCells m.cells (2 * a) (v.extractLsb' 8 8)) (2 * a + 1) (v.extractLsb' 0 8) }

end Sys2Proof.Machine
end

