-- ==== Sys2Proof/Machine/Ops.lean ====
section
/-! DEFINITION. The named operations over registers, flags, the memory array and the cache (R23 to R29, R51 to
R64, R73); fetching an instruction (R130 to R132); the error outcome (R138) and the TRAP entry (R214), the one
transfer of control that saves state (R237). -/

namespace Sys2Proof.Machine

/-! ## Widths (R6) -/

/-- `s16(v)`: the two's-complement value of a word (R6, R28). -/
def s16 (v : Word) : Int := v.toInt

/-- `u16(x)`: the pattern of an integer, modulo 65536 (R6). -/
def u16 (x : Int) : Word := BitVec.ofInt 16 x

/-- `u12(x)` of a 16-bit pattern: the low 12 bits (R6, R168). -/
def u12 (v : Word) : BitVec 12 := v.setWidth 12

/-- `zext_16(pc)`: a 12-bit address as a 16-bit pattern (R131, R164). -/
def zextPc (p : BitVec 12) : Word := p.setWidth 16

/-! ## The register file (R21 to R23, R27) -/

/-- GPR[r]. -/
def GprFile.get (g : GprFile) : Gpr → Word
  | .r0 => g.r0 | .r1 => g.r1 | .r2 => g.r2 | .r3 => g.r3

/-- GPR[r] <- v. -/
def GprFile.set (g : GprFile) (r : Gpr) (v : Word) : GprFile :=
  match r with
  | .r0 => { g with r0 := v }
  | .r1 => { g with r1 := v }
  | .r2 => { g with r2 := v }
  | .r3 => { g with r3 := v }

/-- IXR[j]. -/
def IxrFile.get (x : IxrFile) : Ixr → Word
  | .i0 => x.i0 | .i1 => x.i1 | .i2 => x.i2

/-- IXR[j] <- v. -/
def IxrFile.set (x : IxrFile) (j : Ixr) (v : Word) : IxrFile :=
  match j with
  | .i0 => { x with i0 := v }
  | .i1 => { x with i1 := v }
  | .i2 => { x with i2 := v }

/-- `x[r]` (R7, R21). -/
def State.x (s : State) (r : Gpr) : Word := s.gpr.get r

/-- `x[r] <- v` (R7, R27). -/
def State.setGpr (s : State) (r : Gpr) (v : Word) : State := { s with gpr := s.gpr.set r v }

/-- `ixr[j]` (R7, R22). -/
def State.ixrAt (s : State) (j : Ixr) : Word := s.ixr.get j

/-- `ixr[j] <- v` (R7, R27). -/
def State.setIxr (s : State) (j : Ixr) (v : Word) : State := { s with ixr := s.ixr.set j v }

/-- `pc <- t`, the target already masked to 12 bits (R23). -/
def State.setPc (s : State) (t : BitVec 12) : State := { s with pc := t }

/-! ## Flags (R25, R26, R29) -/

/-- Read a condition code by name. -/
def CondCodes.get (c : CondCodes) : CcFlag → Bool
  | .ov => c.ov | .uf => c.uf | .dz => c.dz | .eq => c.eq

/-- Write a condition code by name. -/
def CondCodes.set (c : CondCodes) (f : CcFlag) (b : Bool) : CondCodes :=
  match f with
  | .ov => { c with ov := b }
  | .uf => { c with uf := b }
  | .dz => { c with dz := b }
  | .eq => { c with eq := b }

/-- Read a machine-fault flag by name. -/
def FaultFlags.get (m : FaultFlags) : MfrFlag → Bool
  | .oob => m.oob | .iop => m.iop | .itr => m.itr | .rsv => m.rsv

/-- Write a machine-fault flag by name. -/
def FaultFlags.set (m : FaultFlags) (f : MfrFlag) (b : Bool) : FaultFlags :=
  match f with
  | .oob => { m with oob := b }
  | .iop => { m with iop := b }
  | .itr => { m with itr := b }
  | .rsv => { m with rsv := b }

/-- `mfr.f <- 1`. -/
def State.raiseMfr (s : State) (f : MfrFlag) : State := { s with mfr := s.mfr.set f true }

/-! ## The memory array behind the cache (R51, R52) -/

/-- What `Mem.read(a)` delivers: the word, or the sentinel out of bounds (R51). -/
def State.arrayWord (s : State) (a : Nat) : Word :=
  if a < s.mem.size then s.mem.word a else Config.oobSentinel

/-- `Mem.read(a)` (R51). -/
def arrayRead (a : Nat) (s : State) : Word × State :=
  if a < s.mem.size then (s.mem.word a, s) else (Config.oobSentinel, s.raiseMfr .oob)

/-- `Mem.write(a, v)` (R52). -/
def arrayWrite (a : Nat) (v : Word) (s : State) : State :=
  if a < s.mem.size then { s with mem := s.mem.setWord a v } else s.raiseMfr .oob

/-! ## The cache (R54 to R60) -/

/-- `tag = a >> 3`, 13 bits (R55). -/
def tagOf (a : Word) : BitVec 13 := a.extractLsb' 3 13

/-- `offset = a & 7` (R55). -/
def offsetOf (a : Word) : Fin 8 := ⟨a.toNat % 8, Nat.mod_lt _ (by decide)⟩

/-- `(tag << 3) + o`: the address of word `o` of a block (R54, R60, C5). -/
def blockAddr (tag : BitVec 13) (o : Fin 8) : Nat := tag.toNat * 8 + o.val

/-- The eight offsets of a block, ascending (R57, D14). -/
def offsets : List (Fin 8) := [0, 1, 2, 3, 4, 5, 6, 7]

/-- `Line[i]`. An index outside 0 .. CACHE_LINES-1 reads as an empty line; no state that meets the invariant
asks for one (assumption log 24). -/
def State.line (s : State) (i : Nat) : Line := s.lines.getD i Line.empty

/-- `Line[i] <- l`. -/
def State.setLine (s : State) (i : Nat) (l : Line) : State := { s with lines := s.lines.set i l }

/-- The line that holds a block, if it is resident (R55). -/
def State.lookup (s : State) (tag : BitVec 13) : Option Nat :=
  s.lines.findIdx? (fun l => l.valid && l.tag == tag)

/-- `touch(i)`: move line `i` to the LRU tail (R57, R59). -/
def touch (i : Nat) (s : State) : State := { s with lru := s.lru.erase i ++ [i] }

/-- Write all eight words of a block back to Mem (R57, R60). -/
def writeBack (l : Line) (s : State) : State :=
  offsets.foldl (fun s o => arrayWrite (blockAddr l.tag o) (l.block.get o) s) s

/-- Read the eight words of a block from Mem into `block`, in ascending order (R57). -/
def fillBlock (tag : BitVec 13) (block : Vector Word 8) (s : State) : Vector Word 8 × State :=
  offsets.foldl (fun p o => ((p.1.set o.val (arrayRead (blockAddr tag o) p.2).1),
    (arrayRead (blockAddr tag o) p.2).2)) (block, s)

/-- The victim of a miss: the head of LRU (R57). Assumption log 24 for a state with no line. -/
def State.victim (s : State) : Nat := s.lru.headD 0

/-- The write-back half of a miss: a valid dirty victim goes to Mem, any other is dropped (R57). -/
def evict (s : State) : State :=
  if (s.line s.victim).valid && (s.line s.victim).dirty then writeBack (s.line s.victim) s else s

/-- The fill half of a miss: the victim takes the block, valid and clean, and goes to the LRU tail (R57). -/
def fill (tag : BitVec 13) (s : State) : State :=
  touch s.victim ((fillBlock tag (s.line s.victim).block s).2.setLine s.victim
    { valid := true, tag := tag, block := (fillBlock tag (s.line s.victim).block s).1, dirty := false })

/-- `miss(tag)`: the line that now holds the block, and the state (R57). -/
def miss (tag : BitVec 13) (s : State) : Nat × State := (s.victim, fill tag (evict s))

/-- `Cache.read(a)` (R56). -/
def cacheRead (a : Word) (s : State) : Word × State :=
  match s.lookup (tagOf a) with
  | some i => ((s.line i).block.get (offsetOf a), touch i s)
  | none =>
    (((miss (tagOf a) s).2.line (miss (tagOf a) s).1).block.get (offsetOf a), (miss (tagOf a) s).2)

/-- Update one word of line `i` and mark it dirty (R58). -/
def storeInLine (i : Nat) (o : Fin 8) (v : Word) (s : State) : State :=
  s.setLine i { s.line i with block := (s.line i).block.set o.val v, dirty := true }

/-- `Cache.write(a, v)` (R58): write-allocate, write-back. -/
def cacheWrite (a : Word) (v : Word) (s : State) : State :=
  match s.lookup (tagOf a) with
  | some i => touch i (storeInLine i (offsetOf a) v s)
  | none => touch (miss (tagOf a) s).1 (storeInLine (miss (tagOf a) s).1 (offsetOf a) v (miss (tagOf a) s).2)

/-! ## The primitives instructions use (R62), and the coherent view (R73) -/

/-- `MemRead(addr, 1)` (R62). -/
def memRead (addr : Word) (s : State) : Word × State := cacheRead addr s

/-- `MemWrite(addr, 1, v)` (R62). -/
def memWrite (addr : Word) (v : Word) (s : State) : State := cacheWrite addr v s

/-- `View(a)` (R73): the cached copy if the block is resident, else the memory word, else the sentinel. A pure
function of the state, not a hardware operation (D37). -/
def State.view (s : State) (a : Word) : Word :=
  match s.lookup (tagOf a) with
  | some i => (s.line i).block.get (offsetOf a)
  | none => s.arrayWord a.toNat

/-! ## Fetch (R130 to R132) -/

/-- Steps 1 and 2 of R130: `ir <- MemRead(pc, 1)`, then `pc <- pc + 1` modulo 4096. The report of the previous
step is over: the outcome is `continue` until a HLT says otherwise (R8, assumption log 12). -/
def fetch (s : State) : State :=
  { (memRead (zextPc s.pc) s).2 with
    ir := (memRead (zextPc s.pc) s).1, pc := s.pc + 1, report := .continues }

/-- Put a word where the next fetch reads it: in the cached copy when the block of `pc` is resident, else in the
memory array. Where neither exists (`pc >= MEM_WORDS` and not resident) there is no place for it and the state
is unchanged (assumption log 14). -/
def placeAtPc (w : Word) (s : State) : State :=
  match s.lookup (tagOf (zextPc s.pc)) with
  | some i =>
    s.setLine i { s.line i with block := (s.line i).block.set (offsetOf (zextPc s.pc)).val w, dirty := true }
  | none => if s.pc.toNat < s.mem.size then { s with mem := s.mem.setWord s.pc.toNat w } else s

/-! ## Errors and traps -/

/-- `raise InvalidRegister(index)` inside a step (R27, R138, R233). -/
def raiseInvalidRegister (index : Int) (s : State) : Host.Outcome State Fault Refusal :=
  .fault (.invalidRegister index s)

/-- `raise InvalidRegisterPair(rx, ry)` (R138, R191, R233). -/
def raiseInvalidRegisterPair (rx ry : Gpr) (s : State) : Host.Outcome State Fault Refusal :=
  .fault (.invalidRegisterPair rx ry s)

/-- The word that receives a TRAP's return address (R68, R214). -/
def trapReturnAddr : Word := 2

/-- The word that holds the address of the trap table (R68, R214). -/
def trapTablePtr : Word := 0

/-- TRAP entry (R214, D31, D44): the return address goes to word 2, then the table address is read from word 0,
then `pc` is the table's entry numbered `code`. There is no return instruction: a routine returns with
JMA 0,2,1 (R238). -/
def takeTrap (code : Nat) (s : State) : State :=
  let saved := memWrite trapReturnAddr (zextPc s.pc) s
  let table := memRead trapTablePtr saved
  let entry := memRead (table.1 + BitVec.ofNat 16 code) table.2
  entry.2.setPc (u12 entry.1)

/-- An illegal opcode sets `mfr.IOP` and does nothing else; the outcome is `continue` (R216, D32). -/
def illegalOpcode (s : State) : Host.Outcome State Fault Refusal := .next (s.raiseMfr .iop)

end Sys2Proof.Machine
end

