-- ==== Sys2Proof/Machine/Flags.lean ====
section
/-! DEFINITION. Every condition-code computation of the spec (R25, R29, R180, R185 to R187). Overflow, underflow and
divide-by-zero are only ever set by an instruction; EQ is written both ways (D20). -/

namespace Sys2Proof.Machine

/-- `if t > 32767 then cc.OV <- 1` (R180, D21). -/
def setOverflow (t : Int) (s : State) : State :=
  { s with cc := { s.cc with ov := s.cc.ov || decide (32767 < t) } }

/-- `if t < -32768 then cc.UF <- 1` (R180, D21). -/
def setUnderflow (t : Int) (s : State) : State :=
  { s with cc := { s.cc with uf := s.cc.uf || decide (t < -32768) } }

/-- `if hi != 0 then cc.OV <- 1`, MLT's rule taken literally (R185, D39, C14). -/
def setMltOverflow (hi : Word) (s : State) : State :=
  { s with cc := { s.cc with ov := s.cc.ov || decide (hi ≠ 0) } }

/-- `cc.DZ <- 1` (R186). -/
def setDivideByZero (s : State) : State := { s with cc := { s.cc with dz := true } }

/-- `cc.EQ <- (a = b)`, both ways (R187, D20). -/
def writeEqual (a b : Word) (s : State) : State := { s with cc := { s.cc with eq := decide (a = b) } }

end Sys2Proof.Machine
end

