-- ==== Sys2Proof/Machine/Operands.lean ====
section
/-! DEFINITION. Operand forms: the effective-address resolver with its four modes (R134 to R136), the index
register a selector names (R22), the zero-extended immediate (R104) and the register pair of MLT and DVD (R191). -/

namespace Sys2Proof.Machine

/-- The index register a selector names: `X(ix) = IXR[ix-1]`, none for 0 (R22, D6). -/
def selectedIxr : IndexSel → Option Ixr
  | .noIndex => none
  | .x1 => some .i0
  | .x2 => some .i1
  | .x3 => some .i2

/-- `zext_16` of an unsigned field (R104). -/
def zextField (n : Nat) : Word := BitVec.ofNat 16 n

/-- The address before indirection: the field, plus the selected index register modulo 65536 (R134, R136). -/
def indexedAddr (x : IndexSel) (address : Nat) (s : State) : Word :=
  match selectedIxr x with
  | none => zextField address
  | some j => zextField address + s.ixrAt j

/-- `resolve(ix, i, address)`: the effective address, and the state after the pointer read when `i = 1` (R134). -/
def resolve (x : IndexSel) (i : Bool) (address : Nat) (s : State) : Word × State :=
  if i then memRead (indexedAddr x address s) s else (indexedAddr x address s, s)

/-- The effective address as a pure function of the state: the table of R134, with `View` (R73) for the word the
pointer read delivers. `resolve` is the hardware's way to it. -/
def effAddr (x : IndexSel) (i : Bool) (address : Nat) (s : State) : Word :=
  if i then s.view (indexedAddr x address s) else indexedAddr x address s

/-- The register that takes the second result of MLT and DVD, for the two registers they may name; none for
the registers the pair check of R191 refuses. -/
def pairSecond : Gpr → Option Gpr
  | .r0 => some .r1
  | .r2 => some .r3
  | .r1 => none
  | .r3 => none

end Sys2Proof.Machine
end

