-- ==== Sys2Proof/Machine/ArithLogic.lean ====
section
/-! DEFINITION. Arithmetic and logic instructions (spec/43_arith_logic.md, R180 to R191). The exact result is formed
as an integer and narrowed at the end (R180). -/

namespace Sys2Proof.Machine

/-- AMR: `x[reg] <- u16(s16(x[reg]) + s16(MemRead(EA, 1)))`, OV and UF (R181, D23). -/
def execAmr (r : Gpr) (x : IndexSel) (i : Bool) (address : Nat) (s : State) : Host.Outcome State Fault Refusal :=
  let ea := resolve x i address s
  let m := memRead ea.1 ea.2
  let t := s16 (m.2.x r) + s16 m.1
  .next ((setUnderflow t (setOverflow t m.2)).setGpr r (u16 t))

/-- SMR: `x[reg] <- u16(s16(x[reg]) - s16(MemRead(EA, 1)))`, OV and UF (R182, D23). -/
def execSmr (r : Gpr) (x : IndexSel) (i : Bool) (address : Nat) (s : State) : Host.Outcome State Fault Refusal :=
  let ea := resolve x i address s
  let m := memRead ea.1 ea.2
  let t := s16 (m.2.x r) - s16 m.1
  .next ((setUnderflow t (setOverflow t m.2)).setGpr r (u16 t))

/-- AIR: `x[reg] <- u16(s16(x[reg]) + immediate)`, OV only (R183, D23). -/
def execAir (r : Gpr) (immediate : Nat) (s : State) : Host.Outcome State Fault Refusal :=
  let t := s16 (s.x r) + immediate
  .next ((setOverflow t s).setGpr r (u16 t))

/-- SIR: `x[reg] <- u16(s16(x[reg]) - immediate)`, UF only (R184, D23). -/
def execSir (r : Gpr) (immediate : Nat) (s : State) : Host.Outcome State Fault Refusal :=
  let t := s16 (s.x r) - immediate
  .next ((setUnderflow t s).setGpr r (u16 t))

/-- The 32-bit pattern of the signed product (R185). -/
def product (a b : Word) : BitVec 32 := BitVec.ofInt 32 (s16 a * s16 b)

/-- MLT: after the pair check, the high half of the signed product to `rx` and the low half to `rx + 1`; OV when
the high half is not 0 (R185, R191, D24, D39). -/
def execMlt (rx ry : Gpr) (s : State) : Host.Outcome State Fault Refusal :=
  match pairSecond rx, pairSecond ry with
  | some second, some _ =>
    let p := product (s.x rx) (s.x ry)
    let hi := p.extractLsb' 16 16
    let lo := p.extractLsb' 0 16
    .next (setMltOverflow hi ((s.setGpr rx hi).setGpr second lo))
  | _, _ => raiseInvalidRegisterPair rx ry s

/-- DVD: after the pair check, a zero divisor sets DZ and nothing else; otherwise the quotient, rounded toward
zero, to `rx` and the remainder, with the sign of the dividend, to `rx + 1` (R186, R191, D24, D25). -/
def execDvd (rx ry : Gpr) (s : State) : Host.Outcome State Fault Refusal :=
  match pairSecond rx, pairSecond ry with
  | some second, some _ =>
    let a := s16 (s.x rx)
    let b := s16 (s.x ry)
    if b = 0 then .next (setDivideByZero s)
    else
      let q := a.tdiv b
      .next ((s.setGpr rx (u16 q)).setGpr second (u16 (a - q * b)))
  | _, _ => raiseInvalidRegisterPair rx ry s

/-- TRR: `cc.EQ <- (x[rx] = x[ry])` (R187, D20, D23). -/
def execTrr (rx ry : Gpr) (s : State) : Host.Outcome State Fault Refusal :=
  .next (writeEqual (s.x rx) (s.x ry) s)

/-- AND: `x[rx] <- x[rx] & x[ry]` (R188, D23). -/
def execAnd (rx ry : Gpr) (s : State) : Host.Outcome State Fault Refusal :=
  .next (s.setGpr rx (s.x rx &&& s.x ry))

/-- ORR: `x[rx] <- x[rx] | x[ry]` (R189, D23). -/
def execOrr (rx ry : Gpr) (s : State) : Host.Outcome State Fault Refusal :=
  .next (s.setGpr rx (s.x rx ||| s.x ry))

/-- NOT: `x[rx] <- ~x[rx]`; the `ry` field is ignored (R190, D23). -/
def execNot (rx : Gpr) (s : State) : Host.Outcome State Fault Refusal :=
  .next (s.setGpr rx (~~~ s.x rx))

end Sys2Proof.Machine
end

