-- ==== Sys2Proof/Machine/IoMisc.lean ====
section
/-! DEFINITION. Input/output and miscellaneous instructions (spec/45_io_misc.md, R210 to R215). -/

namespace Sys2Proof.Machine

/-- IN: `x[reg] <- DevIn(devID)`, a fresh draw (R210, R215, D30). -/
def execIn (r : Gpr) (dev : Nat) (s : State) : Host.Outcome State Fault Refusal :=
  .next ({ s with draws := s.draws + 1 }.setGpr r (Config.devIn s.draws dev))

/-- OUT: `DevOut(devID, x[reg])`; the only effect is the event (R211, R215, D30). -/
def execOut (r : Gpr) (dev : Nat) (s : State) : Host.Outcome State Fault Refusal :=
  .next { s with events := s.events ++ [{ dev := dev, value := s.x r }] }

/-- CHK: `x[reg] <- DevStatus(devID)`, a fresh draw (R212, R215, D30). -/
def execChk (r : Gpr) (dev : Nat) (s : State) : Host.Outcome State Fault Refusal :=
  .next ({ s with draws := s.draws + 1 }.setGpr r (Config.devStatus s.draws dev))

/-- HLT: the step's outcome is `halt`; nothing of the machine changes (R213, D18). The next state holds that
report, and no latch: the next step overwrites it and runs the word at pc (R32, R269). Assumption log 12. -/
def execHlt (s : State) : Host.Outcome State Fault Refusal := .next { s with report := .halts }

/-- TRAP: through the table (R214, D31). -/
def execTrap (code : Nat) (s : State) : Host.Outcome State Fault Refusal := .next (takeTrap code s)

end Sys2Proof.Machine
end

