-- ==== Sys2Proof/Machine/LoadStore.lean ====
section
/-! DEFINITION. Load and store instructions (spec/41_load_store.md, R150 to R154). Each meaning starts after fetch,
pc increment and decode, and resolves its effective address first (R130, R135). -/

namespace Sys2Proof.Machine

/-- LDR: `x[reg] <- MemRead(EA, 1)` (R150). -/
def execLdr (r : Gpr) (x : IndexSel) (i : Bool) (address : Nat) (s : State) : Host.Outcome State Fault Refusal :=
  let ea := resolve x i address s
  let m := memRead ea.1 ea.2
  .next (m.2.setGpr r m.1)

/-- STR: `MemWrite(EA, 1, x[reg])` (R151). -/
def execStr (r : Gpr) (x : IndexSel) (i : Bool) (address : Nat) (s : State) : Host.Outcome State Fault Refusal :=
  let ea := resolve x i address s
  .next (memWrite ea.1 (ea.2.x r) ea.2)

/-- LDA: `x[reg] <- EA`, all 16 bits (R152, D41). -/
def execLda (r : Gpr) (x : IndexSel) (i : Bool) (address : Nat) (s : State) : Host.Outcome State Fault Refusal :=
  let ea := resolve x i address s
  .next (ea.2.setGpr r ea.1)

/-- LDX: selector 0 names no index register and is an error; else `X(ix) <- MemRead(EA, 1)`, with the address
indexed by the old value of that register (R153, D7, D8). -/
def execLdx (x : IndexSel) (i : Bool) (address : Nat) (s : State) : Host.Outcome State Fault Refusal :=
  let ea := resolve x i address s
  match selectedIxr x with
  | none => raiseInvalidRegister 0 ea.2
  | some j =>
    let m := memRead ea.1 ea.2
    .next (m.2.setIxr j m.1)

/-- STX: selector 0 is an error before any write; else `MemWrite(EA, 1, X(ix))` (R154, D7, D8). -/
def execStx (x : IndexSel) (i : Bool) (address : Nat) (s : State) : Host.Outcome State Fault Refusal :=
  let ea := resolve x i address s
  match selectedIxr x with
  | none => raiseInvalidRegister 0 ea.2
  | some j => .next (memWrite ea.1 (ea.2.ixrAt j) ea.2)

end Sys2Proof.Machine
end

