-- ==== Sys2Proof/Machine/ShiftRotate.lean ====
section
/-! DEFINITION. Shift and rotate instructions (spec/44_shift_rotate.md, R200 to R202, D29). Neither writes a flag. -/

namespace Sys2Proof.Machine

/-- The shifted word (R200, R202): left shifts are the same in both modes; an arithmetic right shift copies
bit 15. -/
def shiftWord (mode : ShiftMode) (dir : ShiftDir) (count : Nat) (v : Word) : Word :=
  match dir, mode with
  | .left, _ => v <<< count
  | .right, .logical => v >>> count
  | .right, .arithmetic => v.sshiftRight count

/-- The rotated word (R201): over the 16 bits alone; count 0 leaves it unchanged. -/
def rotateWord (dir : ShiftDir) (count : Nat) (v : Word) : Word :=
  if count = 0 then v
  else match dir with
    | .left => (v <<< count) ||| (v >>> (16 - count))
    | .right => (v >>> count) ||| (v <<< (16 - count))

/-- SRC: shift register by count (R200). -/
def execSrc (r : Gpr) (mode : ShiftMode) (dir : ShiftDir) (count : Nat) (s : State) : Host.Outcome State Fault Refusal :=
  .next (s.setGpr r (shiftWord mode dir count (s.x r)))

/-- RRC: rotate register by count; `A_L` is decoded and ignored (R201). -/
def execRrc (r : Gpr) (_mode : ShiftMode) (dir : ShiftDir) (count : Nat) (s : State) : Host.Outcome State Fault Refusal :=
  .next (s.setGpr r (rotateWord dir count (s.x r)))

end Sys2Proof.Machine
end

