-- ==== Sys2Proof/Machine/Transfer.lean ====
section
/-! DEFINITION. Control-transfer instructions (spec/42_transfer.md, R160 to R168). A taken jump writes the low 12
bits of the effective address to pc; a jump not taken leaves the incremented pc (R168). -/

namespace Sys2Proof.Machine

/-- `pc <- EA` when the condition holds (R168). -/
def jumpIf (c : Bool) (ea : Word) (s : State) : State := if c then s.setPc (u12 ea) else s

/-- JZ: `if x[reg] = 0 then pc <- EA` (R160). -/
def execJz (r : Gpr) (x : IndexSel) (i : Bool) (address : Nat) (s : State) : Host.Outcome State Fault Refusal :=
  let ea := resolve x i address s
  .next (jumpIf (decide (ea.2.x r = 0)) ea.1 ea.2)

/-- JNE: `if x[reg] != 0 then pc <- EA` (R161). -/
def execJne (r : Gpr) (x : IndexSel) (i : Bool) (address : Nat) (s : State) : Host.Outcome State Fault Refusal :=
  let ea := resolve x i address s
  .next (jumpIf (decide (ea.2.x r ≠ 0)) ea.1 ea.2)

/-- JCC: `if (the selected flag) = 1 then pc <- EA`; the flag is not cleared (R162). -/
def execJcc (c : CcFlag) (x : IndexSel) (i : Bool) (address : Nat) (s : State) : Host.Outcome State Fault Refusal :=
  let ea := resolve x i address s
  .next (jumpIf (ea.2.cc.get c) ea.1 ea.2)

/-- JMA: `pc <- EA` (R163). -/
def execJma (x : IndexSel) (i : Bool) (address : Nat) (s : State) : Host.Outcome State Fault Refusal :=
  let ea := resolve x i address s
  .next (jumpIf true ea.1 ea.2)

/-- JSR: `x[3] <- zext_16(pc)`, the address after the JSR, then `pc <- EA` (R164, D27). -/
def execJsr (x : IndexSel) (i : Bool) (address : Nat) (s : State) : Host.Outcome State Fault Refusal :=
  let ea := resolve x i address s
  .next (jumpIf true ea.1 (ea.2.setGpr .r3 (zextPc ea.2.pc)))

/-- RFS: `x[0] <- zext_16(immediate)`, `pc <- u12(x[3])`; no resolver (R165, D28). -/
def execRfs (immediate : Nat) (s : State) : Host.Outcome State Fault Refusal :=
  .next ((s.setGpr .r0 (zextField immediate)).setPc (u12 (s.x .r3)))

/-- SOB: `x[reg] <- u16(x[reg] - 1)`, no flag; jump if the stored signed value is positive (R166, D26). -/
def execSob (r : Gpr) (x : IndexSel) (i : Bool) (address : Nat) (s : State) : Host.Outcome State Fault Refusal :=
  let ea := resolve x i address s
  let s' := ea.2.setGpr r (u16 (s16 (ea.2.x r) - 1))
  .next (jumpIf (decide (0 < s16 (s'.x r))) ea.1 s')

/-- JGE: `if s16(x[reg]) >= 0 then pc <- EA` (R167). -/
def execJge (r : Gpr) (x : IndexSel) (i : Bool) (address : Nat) (s : State) : Host.Outcome State Fault Refusal :=
  let ea := resolve x i address s
  .next (jumpIf (decide (0 ≤ s16 (ea.2.x r))) ea.1 ea.2)

end Sys2Proof.Machine
end

