-- ==== Sys2Proof/Machine/Dispatch.lean ====
section
/-! DEFINITION. The dispatch table (R140): one arm per constructor of Instr. -/

namespace Sys2Proof.Machine

def exec (i : Instr) (s : State) : Host.Outcome State Fault Refusal :=
  match i with
  | .hlt => Sys2Proof.Machine.execHlt s
  | .ldr r x ind a => Sys2Proof.Machine.execLdr r x ind a s
  | .str r x ind a => Sys2Proof.Machine.execStr r x ind a s
  | .lda r x ind a => Sys2Proof.Machine.execLda r x ind a s
  | .amr r x ind a => Sys2Proof.Machine.execAmr r x ind a s
  | .smr r x ind a => Sys2Proof.Machine.execSmr r x ind a s
  | .air r imm => Sys2Proof.Machine.execAir r imm s
  | .sir r imm => Sys2Proof.Machine.execSir r imm s
  | .jz r x ind a => Sys2Proof.Machine.execJz r x ind a s
  | .jne r x ind a => Sys2Proof.Machine.execJne r x ind a s
  | .jcc c x ind a => Sys2Proof.Machine.execJcc c x ind a s
  | .jma x ind a => Sys2Proof.Machine.execJma x ind a s
  | .jsr x ind a => Sys2Proof.Machine.execJsr x ind a s
  | .rfs imm => Sys2Proof.Machine.execRfs imm s
  | .sob r x ind a => Sys2Proof.Machine.execSob r x ind a s
  | .jge r x ind a => Sys2Proof.Machine.execJge r x ind a s
  | .mlt rx ry => Sys2Proof.Machine.execMlt rx ry s
  | .dvd rx ry => Sys2Proof.Machine.execDvd rx ry s
  | .trr rx ry => Sys2Proof.Machine.execTrr rx ry s
  | .and rx ry => Sys2Proof.Machine.execAnd rx ry s
  | .orr rx ry => Sys2Proof.Machine.execOrr rx ry s
  | .not rx => Sys2Proof.Machine.execNot rx s
  | .trap code => Sys2Proof.Machine.execTrap code s
  | .src r mode dir n => Sys2Proof.Machine.execSrc r mode dir n s
  | .rrc r mode dir n => Sys2Proof.Machine.execRrc r mode dir n s
  | .ldx x ind a => Sys2Proof.Machine.execLdx x ind a s
  | .stx x ind a => Sys2Proof.Machine.execStx x ind a s
  | .inp r dev => Sys2Proof.Machine.execIn r dev s
  | .out r dev => Sys2Proof.Machine.execOut r dev s
  | .chk r dev => Sys2Proof.Machine.execChk r dev s

end Sys2Proof.Machine
end

