-- ==== Sys2Proof/Machine/Step.lean ====
section
/-! DEFINITION. One fetch-decode-execute step (R130), for every opcode map (R5), and for the default one. -/

namespace Sys2Proof.Machine

/-- `step()` (R130) of a machine with the opcode map `opc` (R5): fetch and increment pc, decode, then the handler
(which resolves its own effective address first), or the illegal-opcode rule (R216). -/
def stepWith (opc : OpcodeMap) (s : State) : Host.Outcome State Fault Refusal :=
  match decodeWith opc (fetch s).ir with
  | .ok i => exec i (fetch s)
  | .error _ => illegalOpcode (fetch s)

/-- `step()` of the machine with the default map (R101). Assumption log 5. -/
def step (s : State) : Host.Outcome State Fault Refusal := stepWith Mnemonic.opc s

/-- The state with a one-word instruction where the next fetch reads it; nothing else changes. Assumption log 14. -/
def State.withFetchWord (s : State) (nbits w : Nat) : State :=
  placeAtPc (BitVec.ofNat 16 (w % 2 ^ nbits)) s

end Sys2Proof.Machine
end

