-- ==== Sys2Proof/Machine/HostOps.lean ====
section
/-! DEFINITION. What the host can do to the machine between steps: the register-file accessors with their bounds
check and width mask (R27, R36), the flag accessors (R36, R246), loading and launching (R260 to R263, R266), inspecting
memory (R73) and run to halt (R139, R269). -/

namespace Sys2Proof.Machine

/-! ## Register-file accessors (R27) -/

/-- The general register at a host index, none outside 0..3. -/
def gprAtIndex (i : Int) : Option Gpr :=
  if i = 0 then some .r0 else if i = 1 then some .r1 else if i = 2 then some .r2
  else if i = 3 then some .r3 else none

/-- The index register at a host (storage) index, none outside 0..2. -/
def ixrAtIndex (j : Int) : Option Ixr :=
  if j = 0 then some .i0 else if j = 1 then some .i1 else if j = 2 then some .i2 else none

/-- `rf_read_gpr(i)` (R27). -/
def rfReadGpr (i : Int) (s : State) : Except Fault Word :=
  match gprAtIndex i with
  | some r => .ok (s.x r)
  | none => .error (.invalidRegister i s)

/-- `rf_write_gpr(i, v)` for any integer `v` (R27). -/
def rfWriteGpr (i v : Int) (s : State) : Except Fault State :=
  match gprAtIndex i with
  | some r => .ok (s.setGpr r (u16 v))
  | none => .error (.invalidRegister i s)

/-- `rf_read_ixr(j)` (R27). -/
def rfReadIxr (j : Int) (s : State) : Except Fault Word :=
  match ixrAtIndex j with
  | some k => .ok (s.ixrAt k)
  | none => .error (.invalidRegister j s)

/-- `rf_write_ixr(j, v)` for any integer `v` (R27). -/
def rfWriteIxr (j v : Int) (s : State) : Except Fault State :=
  match ixrAtIndex j with
  | some k => .ok (s.setIxr k (u16 v))
  | none => .error (.invalidRegister j s)

/-- `rf_read_pc()` (R27). -/
def rfReadPc (s : State) : BitVec 12 := s.pc

/-- `rf_write_pc(v)` for any integer `v`: stored modulo 4096 (R27). -/
def rfWritePc (v : Int) (s : State) : State := s.setPc (BitVec.ofInt 12 v)

/-! ## Flag accessors (R27, R36) -/

/-- `cc_get(f)`. -/
def ccGet (f : CcFlag) (s : State) : Bool := s.cc.get f

/-- `cc_set(f, b)`. -/
def ccSet (f : CcFlag) (b : Bool) (s : State) : State := { s with cc := s.cc.set f b }

/-- `mfr_get(f)`. -/
def mfrGet (f : MfrFlag) (s : State) : Bool := s.mfr.get f

/-- `mfr_set(f, b)`: the only way a machine-fault flag is cleared, besides reset (R246, D38). -/
def mfrSet (f : MfrFlag) (b : Bool) (s : State) : State := { s with mfr := s.mfr.set f b }

/-! ## Loading and launching (R262, R263, R266) -/

/-- `load(image)`: the pairs go straight to Mem, in order, each through Mem's bounds check (R262). Refused
unless every cache line is empty (R266, D36). -/
def load (image : List (Nat × Word)) (s : State) : Host.Outcome State Fault Refusal :=
  if s.lines.any (fun l => l.valid) then .refused .loadAfterExecution
  else .next (image.foldl (fun s p => arrayWrite p.1 p.2 s) s)

/-- The boot sequence of R263: `reset()`, `load(image)`, `rf_write_pc(ENTRY_PC)`, for a machine of the given
sizes. -/
def launch (memWords cacheLines : Nat) (image : List (Nat × Word)) (entry : Int) : Host.Outcome State Fault Refusal :=
  match load image (State.resetOf memWords cacheLines) with
  | .next s => .next (rfWritePc entry s)
  | .fault f => .fault f
  | .refused r => .refused r

/-! ## Inspecting memory (R73, D37) -/

/-- A host's read of a memory word: through the cache, with the effect of any access on LRU and eviction (R73). -/
def hostRead (a : Word) (s : State) : Word × State := memRead a s

/-- A host's write of a memory word between steps: through the cache (R73, D37). -/
def hostWrite (a : Word) (v : Word) (s : State) : State := memWrite a v s

/-! ## Running (R139, R269) -/

/-- Run to halt on a machine with the opcode map `opc`: `step()` until its outcome is not `continue`, at most
`fuel` times; none while the run has not ended. -/
def runToHaltWith (opc : OpcodeMap) : Nat → State → Option (Host.Outcome State Fault Refusal)
  | 0, _ => none
  | fuel + 1, s =>
    match stepWith opc s with
    | .next s' => if s'.report = .halts then some (.next s') else runToHaltWith opc fuel s'
    | .fault f => some (.fault f)
    | .refused r => some (.refused r)

/-- Run to halt with the default map. -/
def runToHalt (fuel : Nat) (s : State) : Option (Host.Outcome State Fault Refusal) :=
  runToHaltWith Mnemonic.opc fuel s

end Sys2Proof.Machine
end

