-- ==== Sys2Proof/Safety.lean ====
section
/-! DEFINITION. What a legal state is (the invariants of R31 and R61, and that a clean line agrees with memory), and
what a run without a recorded fault is (R234, D32). -/

namespace Sys2Proof.Machine

/-- At most one valid line holds a given tag (R31, R61 (a)). -/
def State.TagsUnique (s : State) : Prop :=
  ∀ i < s.lines.length, ∀ j < s.lines.length, (s.line i).valid = true → (s.line j).valid = true →
    (s.line i).tag = (s.line j).tag → i = j

/-- Every empty line precedes every valid line in LRU (R31, R61 (b)). -/
def State.EmptyFirst (s : State) : Prop :=
  s.lru.Pairwise (fun i j => (s.line i).valid = true → (s.line j).valid = true)

/-- A valid clean line holds what its block reads as in the memory array: the words, and the sentinel at
addresses outside it. So dropping a clean victim loses nothing (R57, R63). -/
def State.CleanCoherent (s : State) : Prop :=
  ∀ i < s.lines.length, (s.line i).valid = true → (s.line i).dirty = false →
    ∀ o : Fin 8, (s.line i).block.get o = s.arrayWord (blockAddr (s.line i).tag o)

/-- The invariant of the machine: memory in canonical form with a legal size (R5), at least one cache line
(R5), LRU a permutation of the line indices (R20, R31), and the cache invariants of R31, R61 and R63. -/
structure State.Inv (s : State) : Prop where
  memWf : s.mem.wf = true
  hasLine : s.lines ≠ []
  lruPerm : s.lru.Perm (List.range s.lines.length)
  tagsUnique : s.TagsUnique
  emptyFirst : s.EmptyFirst
  cleanCoherent : s.CleanCoherent

/-- Word `a` exists (R50): it is below MEM_WORDS. -/
def State.inBounds (s : State) (a : Word) : Bool := decide (a.toNat < s.mem.size)

/-- The whole block of `a` exists: its last word is below MEM_WORDS (R64). -/
def State.blockInBounds (s : State) (tag : BitVec 13) : Bool := decide (blockAddr tag 7 < s.mem.size)

/-- A miss would write no word outside memory: its victim is empty or clean, or the whole block of the victim exists
(R57, R64). -/
def State.evictionFits (s : State) : Bool :=
  !((s.line s.victim).valid && (s.line s.victim).dirty) || s.blockInBounds (s.line s.victim).tag

/-- Every resident block lies wholly within memory, so that no eviction can be refused (R64). -/
def State.NoOobLine (s : State) : Prop :=
  ∀ i < s.lines.length, (s.line i).valid = true → s.blockInBounds (s.line i).tag = true

/-- Every word of memory that exists reads the same, through `View` (R63, R73), in both states. -/
def SameWords (s t : State) : Prop := ∀ a : Word, s.inBounds a = true → t.view a = s.view a

/-- What a memory access leaves alone (R62, R67): every register and condition code, `pc`, `ir`, the flags IOP,
ITR and RSV, the sizes of memory and cache, and the model's own fields. It may move the cache and set the
sticky flag OOB, never clear it (R53). -/
structure AccessFrame (s t : State) : Prop where
  gpr : t.gpr = s.gpr
  ixr : t.ixr = s.ixr
  pc : t.pc = s.pc
  ir : t.ir = s.ir
  cc : t.cc = s.cc
  iop : t.mfr.iop = s.mfr.iop
  itr : t.mfr.itr = s.mfr.itr
  rsv : t.mfr.rsv = s.mfr.rsv
  oobSticky : s.mfr.oob = true → t.mfr.oob = true
  memWords : t.mem.size = s.mem.size
  cacheLines : t.lines.length = s.lines.length
  draws : t.draws = s.draws
  events : t.events = s.events
  report : t.report = s.report

/-- The state an error leaves (R138). -/
def Fault.left : Fault → State
  | .invalidRegister _ s => s
  | .invalidRegisterPair _ _ s => s

/-- The general registers an instruction can write: the `writes` column of R140, the second register of MLT and
DVD being that of `pairSecond`. -/
def gprsWritten : Instr → List Gpr
  | .ldr r _ _ _ | .lda r _ _ _ | .amr r _ _ _ | .smr r _ _ _ | .sob r _ _ _ => [r]
  | .air r _ | .sir r _ | .src r _ _ _ | .rrc r _ _ _ | .inp r _ | .chk r _ => [r]
  | .and rx _ | .orr rx _ | .not rx => [rx]
  | .mlt rx _ | .dvd rx _ => rx :: (pairSecond rx).toList
  | .jsr _ _ _ => [.r3]
  | .rfs _ => [.r0]
  | .str _ _ _ _ | .stx _ _ _ | .ldx _ _ _ | .jz _ _ _ _ | .jne _ _ _ _ | .jcc _ _ _ _ | .jge _ _ _ _ => []
  | .jma _ _ _ | .trr _ _ | .out _ _ | .hlt | .trap _ => []

/-- The index register an instruction can write: LDX alone writes one (R22, R140). -/
def ixrWritten : Instr → Option Ixr
  | .ldx x _ _ => selectedIxr x
  | .stx _ _ _ | .ldr _ _ _ _ | .str _ _ _ _ | .lda _ _ _ _ | .amr _ _ _ _ | .smr _ _ _ _ | .sob _ _ _ _ => none
  | .air _ _ | .sir _ _ | .src _ _ _ _ | .rrc _ _ _ _ | .inp _ _ | .chk _ _ | .out _ _ => none
  | .and _ _ | .orr _ _ | .not _ | .mlt _ _ | .dvd _ _ | .trr _ _ => none
  | .jz _ _ _ _ | .jne _ _ _ _ | .jcc _ _ _ _ | .jge _ _ _ _ | .jma _ _ _ | .jsr _ _ _ | .rfs _ => none
  | .hlt | .trap _ => none

/-- The instructions that can write pc (R23, R140). -/
def transfers : Instr → Bool
  | .jz _ _ _ _ | .jne _ _ _ _ | .jcc _ _ _ _ | .jge _ _ _ _ | .sob _ _ _ _ => true
  | .jma _ _ _ | .jsr _ _ _ | .rfs _ | .trap _ => true
  | .ldr _ _ _ _ | .str _ _ _ _ | .lda _ _ _ _ | .amr _ _ _ _ | .smr _ _ _ _ | .ldx _ _ _ | .stx _ _ _ => false
  | .air _ _ | .sir _ _ | .src _ _ _ _ | .rrc _ _ _ _ | .inp _ _ | .chk _ _ | .out _ _ => false
  | .and _ _ | .orr _ _ | .not _ | .mlt _ _ | .dvd _ _ | .trr _ _ | .hlt => false

/-- The instructions that store to memory (R140). -/
def stores : Instr → Bool
  | .str _ _ _ _ | .stx _ _ _ | .trap _ => true
  | .ldr _ _ _ _ | .lda _ _ _ _ | .amr _ _ _ _ | .smr _ _ _ _ | .ldx _ _ _ => false
  | .jz _ _ _ _ | .jne _ _ _ _ | .jcc _ _ _ _ | .jge _ _ _ _ | .sob _ _ _ _ => false
  | .jma _ _ _ | .jsr _ _ _ | .rfs _ => false
  | .air _ _ | .sir _ _ | .src _ _ _ _ | .rrc _ _ _ _ | .inp _ _ | .chk _ _ | .out _ _ => false
  | .and _ _ | .orr _ _ | .not _ | .mlt _ _ | .dvd _ _ | .trr _ _ | .hlt => false

/-- The instructions that end their step in an error: LDX and STX with selector 0, MLT and DVD with a register
other than GPR[0] and GPR[2] (R233). -/
def endsInError : Instr → Bool
  | .ldx x _ _ | .stx x _ _ => decide (x = .noIndex)
  | .mlt rx ry | .dvd rx ry => !(decide (rx = .r0 ∨ rx = .r2) && decide (ry = .r0 ∨ ry = .r2))
  | .ldr _ _ _ _ | .str _ _ _ _ | .lda _ _ _ _ | .amr _ _ _ _ | .smr _ _ _ _ => false
  | .jz _ _ _ _ | .jne _ _ _ _ | .jcc _ _ _ _ | .jge _ _ _ _ | .sob _ _ _ _ => false
  | .jma _ _ _ | .jsr _ _ _ | .rfs _ | .trap _ | .hlt => false
  | .air _ _ | .sir _ _ | .src _ _ _ _ | .rrc _ _ _ _ | .inp _ _ | .chk _ _ | .out _ _ => false
  | .and _ _ | .orr _ _ | .not _ | .trr _ _ => false

/-- No machine-fault flag is set: the states claims are made about (R234, D32). -/
def State.unfaulted (s : State) : Bool := !s.mfr.oob && !s.mfr.iop && !s.mfr.itr && !s.mfr.rsv

/-- A safe step on a machine with the opcode map `opc`: it ends without an error, and in a state with no
machine-fault flag set. -/
def SafeStep (opc : OpcodeMap) (s : State) : Prop := ∃ t, stepWith opc s = .next t ∧ t.unfaulted = true

end Sys2Proof.Machine
end

