-- ==== Sys2Proof/Certificates/Slice0/Obligations.lean ====
section
/-! DEFINITION. The statements about the model. Each docstring names the rule of spec/ it formalises, and the
decision of the spec (D<n>) or the assumption log entry where it rests on one. `View` is `State.view` (R73),
`EA` is `effAddr` (the table of R134), a word exists when `State.inBounds` holds. `opc` is the opcode map, an argument
(R5); `decode`, `encode` and `step` are `decodeWith`, `encodeWith` and `stepWith` at the default map. -/

open Sys2Proof Sys2Proof.Machine

/-! ## Encoding -/

/-- R107, for every opcode map that R5 allows: decoding the canonical word of a well-formed instruction gives the
instruction back, with every operand; and decode then encode returns the word exactly when its unused bits are 0. So
it is for the default map (decision D1, assumption log 5). -/
def Obligations.DecodeOfEncodeIsIdentity : Prop :=
  (∀ opc : OpcodeMap, opc.Legal →
    (∀ i : Instr, i.wellFormed = true → decodeWith opc (encodeWith opc i) = .ok i)
    ∧ ∀ (w : Word) (i : Instr), decodeWith opc w = .ok i →
        (encodeWith opc i = w ↔ w &&& i.mnemonic.unusedMask = 0))
  ∧ ∀ i : Instr, i.wellFormed = true → decode (encode i) = .ok i

/-- R102, R104: whatever the decoder yields has the opcode of its word and operands that fit their fields, with every
opcode map. -/
def Obligations.DecodedInstructionsAreWellFormed : Prop :=
  ∀ (opc : OpcodeMap) (w : Word) (i : Instr), decodeWith opc w = .ok i →
    i.wellFormed = true ∧ opc i.mnemonic = opcodeField w

/-- R103: the words the decoder rejects are those whose opcode the map gives to no mnemonic, and it rejects them by that
opcode. The default map of D1 (assumption log 5) is one that R5 allows, and leaves out octal 26, 27, 33 to 40, 43 to 60
and 64 to 77. -/
def Obligations.IllegalOpcodesAreTheUnmappedOnes : Prop :=
  (∀ (opc : OpcodeMap) (w : Word),
    decodeWith opc w = .error (.illegalOpcode (opcodeField w)) ↔ ∀ m, opc m ≠ opcodeField w)
  ∧ OpcodeMap.Legal Mnemonic.opc
  ∧ ∀ w : Word, decode w = .error (.illegalOpcode (opcodeField w)) ↔
    ((opcodeField w).toNat = 0o26 ∨ (opcodeField w).toNat = 0o27
      ∨ (0o33 ≤ (opcodeField w).toNat ∧ (opcodeField w).toNat ≤ 0o40)
      ∨ (0o43 ≤ (opcodeField w).toNat ∧ (opcodeField w).toNat ≤ 0o60)
      ∨ (0o64 ≤ (opcodeField w).toNat ∧ (opcodeField w).toNat ≤ 0o77))

/-- R102, decision D3 (assumption log 15): the bits a format leaves unused do not change what a word decodes to, with
every opcode map. -/
def Obligations.UnusedBitsAreIgnored : Prop :=
  ∀ (opc : OpcodeMap) (w w' : Word) (i : Instr), decodeWith opc w = .ok i →
    w &&& ~~~ i.mnemonic.unusedMask = w' &&& ~~~ i.mnemonic.unusedMask → decodeWith opc w' = .ok i

/-- R106: `toBinary` refuses exactly the values that do not fit, and gives the value otherwise; so the encoder
refuses the operand 35 in a 5-bit address field, while the core has no such check: it decodes every word. -/
def Obligations.ToBinaryRefusesWhatDoesNotFit : Prop :=
  (∀ value width : Nat, 2 ^ width ≤ value → toBinary value width = .error .outOfRange)
  ∧ (∀ value width : Nat, value < 2 ^ width → ∃ b, toBinary value width = .ok b ∧ b.toNat = value)
  ∧ ∀ opc : OpcodeMap,
    (∀ i : Instr, encodeCheckedWith opc i = .error .outOfRange ↔ i.wellFormed = false)
    ∧ encodeCheckedWith opc (.ldr .r0 .noIndex false 35) = .error .outOfRange
    ∧ ∀ w : Word, (∃ i, decodeWith opc w = .ok i) ∨ decodeWith opc w = .error (.illegalOpcode (opcodeField w))

/-- R105: six octal digits, most significant first; digit k from the right is `w[3k+2:3k]`, the leftmost is
`w[15]`; a bijection between the words and the strings 000000 .. 177777. -/
def Obligations.OctalTextIsABijection : Prop :=
  (∀ w : Word, octalDigits w = [(w.extractLsb' 15 1).toNat, (w.extractLsb' 12 3).toNat, (w.extractLsb' 9 3).toNat,
    (w.extractLsb' 6 3).toNat, (w.extractLsb' 3 3).toNat, (w.extractLsb' 0 3).toNat])
  ∧ (∀ w : Word, ofOctalDigits (octalDigits w) = w)
  ∧ (∀ d5 d4 d3 d2 d1 d0 : Nat, d5 < 2 → d4 < 8 → d3 < 8 → d2 < 8 → d1 < 8 → d0 < 8 →
      octalDigits (ofOctalDigits [d5, d4, d3, d2, d1, d0]) = [d5, d4, d3, d2, d1, d0])
  ∧ octalDigits 0x0506 = [0, 0, 2, 4, 0, 6] ∧ octalDigits 0xFFFF = [1, 7, 7, 7, 7, 7]

/-- Words written out from the encodings of R92 to R100, one for each format, the spec's own examples V10 with every
field non-zero where there is one. They rest on the spec's decisions D1 (the default opcodes, assumption log 5), D2
(0x03FF is HLT, log 15), D4 and D5 (where AIR and RFS have their immediate, log 16). -/
def Obligations.WordsOfEveryFormatDecode : Prop :=
  decode 0b0000011110100101 = .ok (.ldr .r3 .x2 true 5)
  ∧ decode 0b1000010011101001 = .ok (.ldx .x3 true 9)
  ∧ decode 0b0001101000011111 = .ok (.air .r2 31)
  ∧ decode 0b0011010000000101 = .ok (.rfs 5)
  ∧ decode 0b0100011100000000 = .ok (.dvd .r3 .r0)
  ∧ decode 0b0110100111001111 = .ok (.rrc .r1 .logical .left 15)
  ∧ decode 0b1100011100011111 = .ok (.inp .r3 31)
  ∧ decode 0b0000001111111111 = .ok .hlt
  ∧ decode 0b0110000000001111 = .ok (.trap 15)

/-! ## The register file and the host -/

/-- R27, R36: the accessors check the index and mask the value; a refused access leaves the state as it was; a write
of a register or of a flag, by name, changes that one and nothing else of the state. -/
def Obligations.RegisterFileChecksAndMasks : Prop :=
  (∀ s : State, rfReadGpr 0 s = .ok s.gpr.r0 ∧ rfReadGpr 1 s = .ok s.gpr.r1 ∧ rfReadGpr 2 s = .ok s.gpr.r2
    ∧ rfReadGpr 3 s = .ok s.gpr.r3 ∧ rfReadIxr 0 s = .ok s.ixr.i0 ∧ rfReadIxr 1 s = .ok s.ixr.i1
    ∧ rfReadIxr 2 s = .ok s.ixr.i2 ∧ rfReadPc s = s.pc)
  ∧ (∀ (s : State) (i v : Int), (i < 0 ∨ 3 < i) →
      rfReadGpr i s = .error (.invalidRegister i s) ∧ rfWriteGpr i v s = .error (.invalidRegister i s))
  ∧ (∀ (s : State) (j v : Int), (j < 0 ∨ 2 < j) →
      rfReadIxr j s = .error (.invalidRegister j s) ∧ rfWriteIxr j v s = .error (.invalidRegister j s))
  ∧ (∀ (s : State) (i v : Int), 0 ≤ i → i ≤ 3 → ∃ (r : Gpr) (w : Word), (w.toNat : Int) = v % 65536
      ∧ rfWriteGpr i v s = .ok { s with gpr := s.gpr.set r w } ∧ rfReadGpr i { s with gpr := s.gpr.set r w } = .ok w
      ∧ ∀ k : Int, k ≠ i → 0 ≤ k → k ≤ 3 → rfReadGpr k { s with gpr := s.gpr.set r w } = rfReadGpr k s)
  ∧ (∀ (s : State) (j v : Int), 0 ≤ j → j ≤ 2 → ∃ (x : Ixr) (w : Word), (w.toNat : Int) = v % 65536
      ∧ rfWriteIxr j v s = .ok { s with ixr := s.ixr.set x w } ∧ rfReadIxr j { s with ixr := s.ixr.set x w } = .ok w
      ∧ ∀ k : Int, k ≠ j → 0 ≤ k → k ≤ 2 → rfReadIxr k { s with ixr := s.ixr.set x w } = rfReadIxr k s)
  ∧ (∀ (s : State) (v : Int), ((rfWritePc v s).pc.toNat : Int) = v % 4096
      ∧ rfWritePc v s = { s with pc := (rfWritePc v s).pc })
  ∧ (∀ (s : State) (f : CcFlag) (b : Bool), ccSet f b s = { s with cc := s.cc.set f b }
      ∧ ∀ g, ccGet g (ccSet f b s) = if g = f then b else ccGet g s)
  ∧ (∀ (s : State) (f : MfrFlag) (b : Bool), mfrSet f b s = { s with mfr := s.mfr.set f b }
      ∧ ∀ g, mfrGet g (mfrSet f b s) = if g = f then b else mfrGet g s)

/-- R34, R260 (the values are the spec's decisions D15, D16, D40; assumption log 6 to 9): what reset leaves, for
every memory size and number of lines, and the model's own fields (log 10 to 12). -/
def Obligations.ResetLeavesTheListedValues : Prop :=
  ∀ memWords cacheLines : Nat,
    (∀ r, (State.resetOf memWords cacheLines).x r = 0) ∧ (∀ j, (State.resetOf memWords cacheLines).ixrAt j = 0)
    ∧ (State.resetOf memWords cacheLines).pc = 0 ∧ (State.resetOf memWords cacheLines).ir = 0
    ∧ (∀ f, ccGet f (State.resetOf memWords cacheLines) = false)
    ∧ (∀ f, mfrGet f (State.resetOf memWords cacheLines) = false)
    ∧ (∀ a : Word, (State.resetOf memWords cacheLines).view a
        = if a.toNat < memWords then 0 else Config.oobSentinel)
    ∧ (State.resetOf memWords cacheLines).lines.length = cacheLines
    ∧ (∀ i, ((State.resetOf memWords cacheLines).line i).valid = false)
    ∧ (State.resetOf memWords cacheLines).lru = List.range cacheLines
    ∧ (State.resetOf memWords cacheLines).draws = 0 ∧ (State.resetOf memWords cacheLines).events = []
    ∧ (State.resetOf memWords cacheLines).report = .continues

/-- The invariant holds after reset, for every size the spec allows (R5, R34, R61 (b) "it holds at reset"). -/
def Obligations.ResetMeetsTheInvariant : Prop :=
  State.reset.Inv
  ∧ ∀ memWords cacheLines : Nat, 1 ≤ memWords → memWords ≤ 65536 → 1 ≤ cacheLines →
      (State.resetOf memWords cacheLines).Inv

/-- R262, R263 (entry point: decision D17): after `reset`, `load(image)` and the write of the entry address, every
word reads as the last pair of the image that names it, else 0; OOB is set exactly when the image names an
address that does not exist; registers and condition codes are still 0. -/
def Obligations.LaunchInstallsTheImage : Prop :=
  ∀ (memWords cacheLines : Nat) (image : List (Nat × Word)) (entry : Int),
    1 ≤ memWords → memWords ≤ 65536 → 1 ≤ cacheLines →
    ∃ t, launch memWords cacheLines image entry = .next t ∧ t.Inv
      ∧ (t.pc.toNat : Int) = entry % 4096
      ∧ (∀ a : Word, a.toNat < memWords →
          t.view a = ((image.filter (fun p => p.1 = a.toNat)).getLast?.map Prod.snd).getD 0)
      ∧ (t.mfr.oob = true ↔ ∃ p ∈ image, memWords ≤ p.1)
      ∧ (∀ r, t.x r = 0) ∧ (∀ j, t.ixrAt j = 0) ∧ (∀ f, ccGet f t = false)
      ∧ (∀ l ∈ t.lines, l.valid = false)

/-- R266, decision D36: `load` is refused as soon as one cache line is valid, and only then. -/
def Obligations.LoadIsRefusedAfterExecution : Prop :=
  ∀ (image : List (Nat × Word)) (s : State),
    load image s = .refused .loadAfterExecution ↔ ∃ l ∈ s.lines, l.valid = true

/-! ## Memory and cache -/

/-- R63, R67 (R63 is the spec's inference from R56 to R60): a read delivers `View`, evaluated before the access,
whether it hits or misses, in or out of bounds; no word that exists and no register changes, and a hit changes nothing
but LRU. -/
def Obligations.ReadDeliversTheView : Prop :=
  ∀ (s : State) (a : Word), s.Inv →
    (memRead a s).1 = s.view a ∧ AccessFrame s (memRead a s).2 ∧ SameWords s (memRead a s).2
    ∧ (memRead a s).2.view a = s.view a ∧ (memRead a s).2.Inv
    ∧ ((s.lookup (tagOf a)).isSome = true → (memRead a s).2 = { s with lru := (memRead a s).2.lru })

/-- R58, R63, R70: after a write the address reads as the value written, also when it is out of bounds (R64);
every other word that exists, and every register, is unchanged. -/
def Obligations.WriteChangesOneWord : Prop :=
  ∀ (s : State) (a v : Word), s.Inv →
    (memWrite a v s).view a = v ∧ AccessFrame s (memWrite a v s) ∧ (memWrite a v s).Inv
    ∧ ∀ b, s.inBounds b = true → b ≠ a → (memWrite a v s).view b = s.view b

/-- R58: "The cache is write-allocate and write-back": after a write the block is resident in a dirty line that is
last in LRU, no other line has changed, and the memory array's own word is as it was; on a hit the whole memory array is
untouched, and on a miss it changes at most at the victim's block. -/
def Obligations.WriteIsHeldInTheCache : Prop :=
  ∀ (s : State) (a v : Word), s.Inv → ∃ i, (memWrite a v s).lookup (tagOf a) = some i
    ∧ ((memWrite a v s).line i).dirty = true ∧ ((memWrite a v s).line i).block.get (offsetOf a) = v
    ∧ (memWrite a v s).lru.getLast? = some i ∧ (∀ j, j ≠ i → (memWrite a v s).line j = s.line j)
    ∧ (memWrite a v s).mem.word a.toNat = s.mem.word a.toNat
    ∧ ((s.lookup (tagOf a)).isSome = true → s.lookup (tagOf a) = some i ∧ (memWrite a v s).mem = s.mem)
    ∧ (s.lookup (tagOf a) = none → i = s.victim
        ∧ ∀ k, (∀ o, k ≠ blockAddr (s.line s.victim).tag o) → (memWrite a v s).mem.word k = s.mem.word k)

/-- R64 (the spec's inference), for a read and for a write: a hit changes no machine-fault flag; a miss sets OOB when
its own block does not wholly exist (the fill) and when its victim is valid, dirty and does not wholly exist (the
write-back), and changes no machine-fault flag otherwise; what an evicted line held at addresses that do not exist is
lost, and they read as the sentinel again; a read whose block is absent delivers the sentinel out of bounds. -/
def Obligations.OutOfBoundsAccessSetsTheFlagOnAMiss : Prop :=
  ∀ (s : State) (a v : Word), s.Inv →
    (∀ t, t = (memRead a s).2 ∨ t = memWrite a v s →
      ((s.lookup (tagOf a)).isSome = true → t.mfr = s.mfr)
      ∧ (s.lookup (tagOf a) = none → s.blockInBounds (tagOf a) = false → t.mfr = { s.mfr with oob := true })
      ∧ (s.lookup (tagOf a) = none → (s.line s.victim).valid = true → (s.line s.victim).dirty = true →
          s.blockInBounds (s.line s.victim).tag = false → t.mfr = { s.mfr with oob := true })
      ∧ (s.lookup (tagOf a) = none → s.blockInBounds (tagOf a) = true → s.evictionFits = true → t.mfr = s.mfr)
      ∧ (s.lookup (tagOf a) = none → (s.line s.victim).valid = true →
          ∀ b, tagOf b = (s.line s.victim).tag → s.inBounds b = false → t.view b = Config.oobSentinel))
    ∧ (s.lookup (tagOf a) = none → s.inBounds a = false → (memRead a s).1 = Config.oobSentinel)

/-- R51, R52, R64: while every resident block exists, an access to a block that exists sets no flag, and leaves
every resident block one that exists. -/
def Obligations.InBoundsAccessSetsNoFlag : Prop :=
  ∀ (s : State) (a v : Word), s.Inv → s.NoOobLine → s.blockInBounds (tagOf a) = true →
    (memRead a s).2.mfr = s.mfr ∧ (memRead a s).2.NoOobLine
    ∧ (memWrite a v s).mfr = s.mfr ∧ (memWrite a v s).NoOobLine

/-- R56, R57, R58: a miss takes the LRU head and no other line; it fills that line with the block from memory, valid
and last in LRU, clean after a read; a write then puts its word into the line and marks it dirty. -/
def Obligations.MissReplacesOnlyTheLruHead : Prop :=
  ∀ (s : State) (a v : Word), s.Inv → s.lookup (tagOf a) = none →
    s.lru.head? = some s.victim
    ∧ (∀ t, t = (memRead a s).2 ∨ t = memWrite a v s →
        t.lookup (tagOf a) = some s.victim ∧ t.lru = s.lru.tail ++ [s.victim]
        ∧ ∀ i, i ≠ s.victim → t.line i = s.line i)
    ∧ ((memRead a s).2.line s.victim).dirty = false
    ∧ (∀ o, ((memRead a s).2.line s.victim).block.get o = (memRead a s).2.arrayWord (blockAddr (tagOf a) o))
    ∧ ((memWrite a v s).line s.victim).dirty = true
    ∧ ∀ o, ((memWrite a v s).line s.victim).block.get o
        = if o = offsetOf a then v else (memWrite a v s).arrayWord (blockAddr (tagOf a) o)

/-- R60: a miss, of a read or of a write, whose victim is valid and dirty writes all eight words of it back to
`(tag << 3) + offset`; no other word of the memory array changes, and none at all when the victim is clean or empty. -/
def Obligations.WriteBackCopiesTheWholeBlock : Prop :=
  ∀ (s : State) (a v : Word), s.Inv → s.lookup (tagOf a) = none →
    ∀ t, t = (memRead a s).2 ∨ t = memWrite a v s →
      ((s.line s.victim).valid = true → (s.line s.victim).dirty = true →
        ∀ o : Fin 8, ((s.line s.victim).tag.toNat <<< 3) + o.val < s.mem.size →
          t.mem.word (((s.line s.victim).tag.toNat <<< 3) + o.val) = (s.line s.victim).block.get o)
      ∧ (∀ k, (∀ o : Fin 8, k ≠ ((s.line s.victim).tag.toNat <<< 3) + o.val) → t.mem.word k = s.mem.word k)
      ∧ (¬ ((s.line s.victim).valid = true ∧ (s.line s.victim).dirty = true) → t.mem = s.mem)

/-- R61 (b) (the spec's inference; "must never trigger eviction" is the document's): while an empty line remains, an
access changes no valid line but the one it hits, and never the memory array. -/
def Obligations.NoEvictionWhileALineIsEmpty : Prop :=
  ∀ (s : State) (a v : Word), s.Inv → (∃ i < s.lines.length, (s.line i).valid = false) →
    (memRead a s).2.mem = s.mem ∧ (memWrite a v s).mem = s.mem
    ∧ (∀ i < s.lines.length, (s.line i).valid = true → (memRead a s).2.line i = s.line i)
    ∧ (∀ i < s.lines.length, (s.line i).valid = true → (s.line i).tag ≠ tagOf a → (memWrite a v s).line i = s.line i)

/-- R59: every access, read or write, hit or fill, moves the line of its block to the LRU tail and leaves the order
of the others. -/
def Obligations.EveryAccessMovesItsLineToTheTail : Prop :=
  ∀ (s : State) (a v : Word), s.Inv →
    (∃ i, (memRead a s).2.lookup (tagOf a) = some i ∧ (memRead a s).2.lru = s.lru.erase i ++ [i])
    ∧ (∃ i, (memWrite a v s).lookup (tagOf a) = some i ∧ (memWrite a v s).lru = s.lru.erase i ++ [i])

/-! ## The resolver -/

/-- R134, R136 (index register map: decision D6): the four modes. The pointer read, when there is one, changes no
register and no word that exists. -/
def Obligations.ResolverGivesTheFourModes : Prop :=
  ∀ (s : State) (a : Nat), s.Inv →
    (∀ x i, (resolve x i a s).1 = effAddr x i a s ∧ AccessFrame s (resolve x i a s).2
      ∧ SameWords s (resolve x i a s).2 ∧ (resolve x i a s).2.Inv ∧ (i = false → (resolve x i a s).2 = s))
    ∧ effAddr .noIndex false a s = BitVec.ofNat 16 a
    ∧ effAddr .x1 false a s = BitVec.ofNat 16 (a + s.ixr.i0.toNat)
    ∧ effAddr .x2 false a s = BitVec.ofNat 16 (a + s.ixr.i1.toNat)
    ∧ effAddr .x3 false a s = BitVec.ofNat 16 (a + s.ixr.i2.toNat)
    ∧ effAddr .noIndex true a s = s.view (BitVec.ofNat 16 a)
    ∧ effAddr .x1 true a s = s.view (BitVec.ofNat 16 (a + s.ixr.i0.toNat))
    ∧ effAddr .x2 true a s = s.view (BitVec.ofNat 16 (a + s.ixr.i1.toNat))
    ∧ effAddr .x3 true a s = s.view (BitVec.ofNat 16 (a + s.ixr.i2.toNat))

/-! ## The step -/

/-- R130, R131, R133: with every opcode map, when the word at pc decodes to i, the step is exec of i in the state after
the fetch, which is the state after one read of the word at pc, with that word in ir, pc moved on and the report of
the last step cleared (the report is the model's own field, assumption log 12); and `step` is the step with the
default map (log 5). -/
def Obligations.StepRunsTheDecodedInstruction : Prop :=
  (∀ (opc : OpcodeMap) (s : State) (i : Instr), s.Inv → decodeWith opc (s.view (zextPc s.pc)) = .ok i →
    stepWith opc s = exec i { (memRead (zextPc s.pc) s).2 with
      ir := s.view (zextPc s.pc), pc := s.pc + 1, report := .continues })
  ∧ ∀ (s : State) (i : Instr), s.Inv → decode (s.view (zextPc s.pc)) = .ok i →
    step s = exec i { (memRead (zextPc s.pc) s).2 with
      ir := s.view (zextPc s.pc), pc := s.pc + 1, report := .continues }

/-- R216 (decision D32): with every opcode map, a word whose opcode is not mapped sets IOP in the state the fetch
leaves and changes nothing else of it: no register, no other flag, no cache line, no word; pc keeps its increment, and
the step continues. -/
def Obligations.IllegalOpcodeSetsIopAndContinues : Prop :=
  ∀ (opc : OpcodeMap) (s : State) (op : BitVec 6), s.Inv →
    decodeWith opc (s.view (zextPc s.pc)) = .error (.illegalOpcode op) →
    ∃ t, stepWith opc s = .next t ∧ t = { fetch s with mfr := { (fetch s).mfr with iop := true } }
      ∧ t.mfr.iop = true ∧ t.pc = s.pc + 1 ∧ t.ir = s.view (zextPc s.pc)
      ∧ t.report = .continues ∧ SameWords s t ∧ t.gpr = s.gpr ∧ t.ixr = s.ixr ∧ t.cc = s.cc
      ∧ t.mfr.oob = (fetch s).mfr.oob ∧ t.mfr.itr = s.mfr.itr ∧ t.mfr.rsv = s.mfr.rsv
      ∧ t.draws = s.draws ∧ t.events = s.events ∧ t.mem.size = s.mem.size ∧ t.lines.length = s.lines.length

/-- R132: right after the fetch pc is incremented, from 4095 to 0; every handler sees that pc; with every opcode map, an
instruction that does not transfer control leaves it, and the increment stands when the step ends in `halt` or in an
error. -/
def Obligations.PcIsIncrementedAfterTheFetch : Prop :=
  (∀ s : State, (fetch s).pc.toNat = (s.pc.toNat + 1) % 4096)
  ∧ ∀ opc : OpcodeMap,
    (∀ (s t : State) (i : Instr), s.Inv → decodeWith opc (s.view (zextPc s.pc)) = .ok i → transfers i = false →
      stepWith opc s = .next t → t.pc = s.pc + 1)
    ∧ (∀ (s t : State), s.Inv → stepWith opc s = .next t → t.report = .halts → t.pc = s.pc + 1)
    ∧ (∀ (s : State) (f : Fault), s.Inv → stepWith opc s = .fault f → f.left.pc = s.pc + 1)

/-- R8, R213 (the report is the model's own field, assumption log 12; all words with opcode 0 are HLT by decision
D2): with every opcode map that R5 allows, a step that ends without an error reports `halt` exactly when the opcode
field of the word at pc is 0. -/
def Obligations.StepReportsHaltExactlyForHlt : Prop :=
  ∀ (opc : OpcodeMap) (s t : State), opc.Legal → s.Inv → stepWith opc s = .next t →
    (t.report = .halts ↔ opcodeField (s.view (zextPc s.pc)) = 0)

/-- R233, R138 (decision D19, assumption log 13): with every opcode map, a step ends in an error exactly for LDX and STX
with selector 0 and MLT and DVD with a register other than GPR[0] and GPR[2], it is never refused, and the error leaves
the registers, the condition codes and every word that exists as they were, with ir loaded and pc incremented. -/
def Obligations.ErrorsAreTheThreeChecksAndWriteNothing : Prop :=
  ∀ (opc : OpcodeMap) (s : State), s.Inv →
    ((∃ f, stepWith opc s = .fault f)
      ↔ ∃ i, decodeWith opc (s.view (zextPc s.pc)) = .ok i ∧ endsInError i = true)
    ∧ (∀ r, stepWith opc s ≠ .refused r)
    ∧ ∀ f, stepWith opc s = .fault f →
        f.left.gpr = s.gpr ∧ f.left.ixr = s.ixr ∧ f.left.cc = s.cc ∧ SameWords s f.left
        ∧ f.left.ir = s.view (zextPc s.pc) ∧ f.left.pc = s.pc + 1 ∧ f.left.Inv
        ∧ f.left.mfr.iop = s.mfr.iop ∧ f.left.mfr.itr = s.mfr.itr ∧ f.left.mfr.rsv = s.mfr.rsv
        ∧ (s.mfr.oob = true → f.left.mfr.oob = true) ∧ f.left.draws = s.draws ∧ f.left.events = s.events

/-- R31, R61: every step that ends without an error keeps the invariant, with the default opcode map and with every
other: memory in canonical form, LRU a permutation, at most one valid line per tag, empty lines before valid ones,
clean lines equal to memory. -/
def Obligations.StepKeepsTheInvariant : Prop :=
  (∀ s t : State, s.Inv → step s = .next t → t.Inv)
  ∧ ∀ (opc : OpcodeMap) (s t : State), s.Inv → stepWith opc s = .next t → t.Inv

/-- R246: no instruction clears OV, UF, DZ or a machine-fault flag, with any opcode map; the host's accessors and reset
do. -/
def Obligations.StepNeverClearsAStickyFlag : Prop :=
  (∀ (opc : OpcodeMap) (s t : State), s.Inv → stepWith opc s = .next t →
    (s.cc.ov = true → t.cc.ov = true) ∧ (s.cc.uf = true → t.cc.uf = true) ∧ (s.cc.dz = true → t.cc.dz = true)
    ∧ ∀ f, mfrGet f s = true → mfrGet f t = true)
  ∧ (∀ (s : State) (f : CcFlag), ccGet f (ccSet f false s) = false)
  ∧ (∀ (s : State) (f : MfrFlag), mfrGet f (mfrSet f false s) = false)
  ∧ (∀ f, ccGet f State.reset = false) ∧ ∀ f, mfrGet f State.reset = false

/-- R72 (the spec's inference): a store is seen by a fetch of that address in the very next step. -/
def Obligations.StoreIsSeenByTheNextFetch : Prop :=
  ∀ (s t : State) (r : Gpr) (x : IndexSel) (i : Bool) (a : Nat), s.Inv → exec (.str r x i a) s = .next t →
    effAddr x i a s = zextPc t.pc → (fetch t).ir = s.x r

/-- Assumption log 14: a word placed for the next fetch is the word the next fetch loads, and placing it keeps the
invariant, every other word, every register and flag, LRU and every line but the one that holds the block of pc. That
line takes the word and becomes dirty, and the memory array is then untouched; if no line holds the block, the memory
array takes the word. -/
def Obligations.PlacedWordIsFetched : Prop :=
  ∀ (s : State) (w : Word), s.Inv → s.inBounds (zextPc s.pc) = true →
    (fetch (s.withFetchWord 16 w.toNat)).ir = w ∧ (s.withFetchWord 16 w.toNat).Inv
    ∧ AccessFrame s (s.withFetchWord 16 w.toNat) ∧ (s.withFetchWord 16 w.toNat).mfr = s.mfr
    ∧ (s.withFetchWord 16 w.toNat).lru = s.lru
    ∧ (∀ b, s.inBounds b = true → b ≠ zextPc s.pc → (s.withFetchWord 16 w.toNat).view b = s.view b)
    ∧ (∀ j, s.lookup (tagOf (zextPc s.pc)) ≠ some j → (s.withFetchWord 16 w.toNat).line j = s.line j)
    ∧ (∀ i, s.lookup (tagOf (zextPc s.pc)) = some i → (s.withFetchWord 16 w.toNat).mem = s.mem
        ∧ (s.withFetchWord 16 w.toNat).line i
          = { s.line i with block := (s.line i).block.set (offsetOf (zextPc s.pc)).val w, dirty := true })
    ∧ (s.lookup (tagOf (zextPc s.pc)) = none → (s.withFetchWord 16 w.toNat).mem.word s.pc.toNat = w)
    ∧ ∀ k, k ≠ s.pc.toNat → (s.withFetchWord 16 w.toNat).mem.word k = s.mem.word k

/-! ## What an instruction may write: the whole table of R140 -/

/-- R140: an instruction that completes changes no general register but those its `writes` column names, no index
register but LDX's, pc only if it transfers control, and never ir, ITR, RSV or IOP. -/
def Obligations.RegistersWrittenAreThoseOfTheTable : Prop :=
  ∀ (i : Instr) (s t : State), s.Inv → exec i s = .next t →
    (∀ r, r ∉ gprsWritten i → t.x r = s.x r) ∧ (∀ j, some j ≠ ixrWritten i → t.ixrAt j = s.ixrAt j)
    ∧ (transfers i = false → t.pc = s.pc) ∧ t.ir = s.ir
    ∧ t.mfr.iop = s.mfr.iop ∧ t.mfr.itr = s.mfr.itr ∧ t.mfr.rsv = s.mfr.rsv
    ∧ t.mem.size = s.mem.size ∧ t.lines.length = s.lines.length

/-- R25, R140: OV is written only by AMR, SMR, AIR and MLT, UF only by AMR, SMR and SIR, DZ only by DVD and EQ only
by TRR. -/
def Obligations.FlagsAreWrittenOnlyByTheirInstructions : Prop :=
  ∀ (i : Instr) (s t : State), s.Inv → exec i s = .next t →
    (i.mnemonic ∉ [Mnemonic.AMR, .SMR, .AIR, .MLT] → t.cc.ov = s.cc.ov)
    ∧ (i.mnemonic ∉ [Mnemonic.AMR, .SMR, .SIR] → t.cc.uf = s.cc.uf)
    ∧ (i.mnemonic ≠ .DVD → t.cc.dz = s.cc.dz)
    ∧ (i.mnemonic ≠ .TRR → t.cc.eq = s.cc.eq)

/-- R140: only STR, STX and TRAP store; after any other instruction every word that exists reads as before. -/
def Obligations.OnlyStoresChangeMemory : Prop :=
  ∀ (i : Instr) (s t : State), s.Inv → exec i s = .next t → stores i = false → SameWords s t

/-- R135 (decision D9), R140: an instruction of a format other than MR, XR and TRAP makes no memory access: the
memory array, the cache and the machine-fault flags are untouched, in every state. -/
def Obligations.OtherFormatsMakeNoAccess : Prop :=
  ∀ (i : Instr) (s t : State), i.mnemonic.format ∉ [Format.MR, .XR, .TRAP] → exec i s = .next t →
    t.mem = s.mem ∧ t.lines = s.lines ∧ t.lru = s.lru ∧ t.mfr = s.mfr

/-! ## Load and store -/

/-- R150: LDR completes with `x[reg] = View(EA)`, as it stands after the pointer read (for an address that exists,
as it stood before the instruction); no flag, and nothing else but the cache and OOB, changes. -/
def Obligations.LdrLoadsTheWordAtTheAddress : Prop :=
  ∀ (s : State) (r : Gpr) (x : IndexSel) (i : Bool) (a : Nat), s.Inv → ∃ u v,
    exec (.ldr r x i a) s = .next { u with gpr := s.gpr.set r v }
    ∧ v = (resolve x i a s).2.view (effAddr x i a s)
    ∧ (s.inBounds (effAddr x i a s) = true → v = s.view (effAddr x i a s))
    ∧ ((resolve x i a s).2.lookup (tagOf (effAddr x i a s)) = none → s.inBounds (effAddr x i a s) = false →
        v = Config.oobSentinel ∧ u.mfr.oob = true)
    ∧ u = (memRead (effAddr x i a s) (resolve x i a s).2).2 ∧ AccessFrame s u ∧ SameWords s u

/-- R151: STR completes with `View(EA) = x[reg]`; every other word that exists, every register and every condition
code is unchanged; the store stays in a dirty line of the cache and the memory array's own word is unchanged; out of
bounds, the fill sets OOB. -/
def Obligations.StrStoresTheRegister : Prop :=
  ∀ (s : State) (r : Gpr) (x : IndexSel) (i : Bool) (a : Nat), s.Inv → ∃ t,
    exec (.str r x i a) s = .next t ∧ t = memWrite (effAddr x i a s) (s.x r) (resolve x i a s).2
    ∧ t.view (effAddr x i a s) = s.x r ∧ AccessFrame s t
    ∧ (∀ b, s.inBounds b = true → b ≠ effAddr x i a s → t.view b = s.view b)
    ∧ (∃ k, t.lookup (tagOf (effAddr x i a s)) = some k ∧ (t.line k).dirty = true)
    ∧ t.mem.word (effAddr x i a s).toNat = (resolve x i a s).2.mem.word (effAddr x i a s).toNat
    ∧ ((resolve x i a s).2.lookup (tagOf (effAddr x i a s)) = none → s.inBounds (effAddr x i a s) = false →
        t.mfr.oob = true)

/-- R152 (all 16 bits: decision D41): LDA completes with `x[reg] = EA`; only the pointer read can move the cache. -/
def Obligations.LdaLoadsTheAddress : Prop :=
  ∀ (s : State) (r : Gpr) (x : IndexSel) (i : Bool) (a : Nat), s.Inv → ∃ u,
    exec (.lda r x i a) s = .next { u with gpr := s.gpr.set r (effAddr x i a s) }
    ∧ u = (resolve x i a s).2 ∧ AccessFrame s u ∧ SameWords s u ∧ (i = false → u = s)

/-- R153 (decisions D6, D8): LDX with selector 1 to 3 completes with `X(ix) = View(EA)`, EA being indexed by the old
value of that very register; nothing else but the cache and OOB changes. -/
def Obligations.LdxLoadsTheIndexRegister : Prop :=
  ∀ (s : State) (x : IndexSel) (j : Ixr) (i : Bool) (a : Nat), s.Inv → selectedIxr x = some j → ∃ u v,
    exec (.ldx x i a) s = .next { u with ixr := s.ixr.set j v }
    ∧ v = (resolve x i a s).2.view (effAddr x i a s)
    ∧ (s.inBounds (effAddr x i a s) = true → v = s.view (effAddr x i a s))
    ∧ indexedAddr x a s = BitVec.ofNat 16 (a + (s.ixrAt j).toNat)
    ∧ u = (memRead (effAddr x i a s) (resolve x i a s).2).2 ∧ AccessFrame s u ∧ SameWords s u

/-- R154 (decisions D6, D8): STX with selector 1 to 3 completes with `View(EA) = X(ix)`, EA being indexed by that very
register; every other word that exists and every register is unchanged. -/
def Obligations.StxStoresTheIndexRegister : Prop :=
  ∀ (s : State) (x : IndexSel) (j : Ixr) (i : Bool) (a : Nat), s.Inv → selectedIxr x = some j → ∃ t,
    exec (.stx x i a) s = .next t ∧ t = memWrite (effAddr x i a s) (s.ixrAt j) (resolve x i a s).2
    ∧ t.view (effAddr x i a s) = s.ixrAt j ∧ AccessFrame s t
    ∧ indexedAddr x a s = BitVec.ofNat 16 (a + (s.ixrAt j).toNat)
    ∧ ∀ b, s.inBounds b = true → b ≠ effAddr x i a s → t.view b = s.view b

/-- R153, R154 (decision D7): LDX and STX with selector 0 end in InvalidRegister; the handler has made no access and
written nothing, so all that can have happened is the resolver's pointer read. -/
def Obligations.SelectorZeroIsAnError : Prop :=
  ∀ (s : State) (i : Bool) (a : Nat), s.Inv → ∃ u,
    exec (.ldx .noIndex i a) s = .fault (.invalidRegister 0 u)
    ∧ exec (.stx .noIndex i a) s = .fault (.invalidRegister 0 u)
    ∧ u = (resolve .noIndex i a s).2 ∧ AccessFrame s u ∧ SameWords s u ∧ (i = false → u = s)

/-! ## Control transfer -/

/-- R160, R161, R167: JZ, JNE and JGE complete; the jump is taken when the register is 0, is not 0, has bit 15 clear,
and then pc holds the low 12 bits of EA; otherwise pc is unchanged. No flag and no register changes; the
resolver's pointer read happens in either case. -/
def Obligations.RegisterJumpsTestTheRegister : Prop :=
  ∀ (s : State) (r : Gpr) (x : IndexSel) (i : Bool) (a : Nat), s.Inv → ∃ u,
    exec (.jz r x i a) s = .next { u with pc := if s.x r = 0 then (effAddr x i a s).setWidth 12 else s.pc }
    ∧ exec (.jne r x i a) s = .next { u with pc := if s.x r = 0 then s.pc else (effAddr x i a s).setWidth 12 }
    ∧ exec (.jge r x i a) s = .next { u with pc := if (s.x r).msb then s.pc else (effAddr x i a s).setWidth 12 }
    ∧ u = (resolve x i a s).2 ∧ AccessFrame s u ∧ SameWords s u

/-- R162 (selector map: decision D22): JCC completes; it jumps when the selected flag is set and leaves all flags. -/
def Obligations.JccTestsTheSelectedFlag : Prop :=
  ∀ (s : State) (x : IndexSel) (i : Bool) (a : Nat), s.Inv → ∃ u,
    exec (.jcc (CcFlag.ofBits 0) x i a) s = .next { u with pc := if s.cc.ov then (effAddr x i a s).setWidth 12 else s.pc }
    ∧ exec (.jcc (CcFlag.ofBits 1) x i a) s = .next { u with pc := if s.cc.uf then (effAddr x i a s).setWidth 12 else s.pc }
    ∧ exec (.jcc (CcFlag.ofBits 2) x i a) s = .next { u with pc := if s.cc.dz then (effAddr x i a s).setWidth 12 else s.pc }
    ∧ exec (.jcc (CcFlag.ofBits 3) x i a) s = .next { u with pc := if s.cc.eq then (effAddr x i a s).setWidth 12 else s.pc }
    ∧ u = (resolve x i a s).2 ∧ AccessFrame s u ∧ SameWords s u

/-- R163: JMA completes with pc the low 12 bits of EA, selector 0 included; nothing else changes. -/
def Obligations.JmaJumpsToTheAddress : Prop :=
  ∀ (s : State) (x : IndexSel) (i : Bool) (a : Nat), s.Inv → ∃ u,
    exec (.jma x i a) s = .next { u with pc := (effAddr x i a s).setWidth 12 }
    ∧ u = (resolve x i a s).2 ∧ AccessFrame s u ∧ SameWords s u ∧ (i = false → u = s)

/-- R164 (decision D27): JSR completes with the incremented pc, zero-extended, in GPR[3] and pc the low 12 bits of EA. -/
def Obligations.JsrSavesTheReturnAddress : Prop :=
  ∀ (s : State) (x : IndexSel) (i : Bool) (a : Nat), s.Inv → ∃ u w,
    exec (.jsr x i a) s = .next { u with gpr := { s.gpr with r3 := w }, pc := (effAddr x i a s).setWidth 12 }
    ∧ w.toNat = s.pc.toNat ∧ u = (resolve x i a s).2 ∧ AccessFrame s u ∧ SameWords s u ∧ (i = false → u = s)

/-- R165 (decision D28): RFS completes with the immediate in GPR[0] and pc the low 12 bits of GPR[3]; nothing else
changes. -/
def Obligations.RfsReturnsThroughGpr3 : Prop :=
  ∀ (s : State) (imm : Nat), exec (.rfs imm) s
    = .next { s with gpr := { s.gpr with r0 := BitVec.ofNat 16 imm }, pc := s.gpr.r3.setWidth 12 }

/-- R166 (decision D26): SOB completes; the register is decremented modulo 65536, no flag changes, and the jump is
taken exactly when the old signed value was above 1 or was -32768. -/
def Obligations.SobDecrementsAndBranches : Prop :=
  ∀ (s : State) (r : Gpr) (x : IndexSel) (i : Bool) (a : Nat), s.Inv → ∃ u,
    exec (.sob r x i a) s = .next { u with
      gpr := s.gpr.set r (s.x r - 1)
      pc := if 1 < (s.x r).toInt ∨ (s.x r).toInt = -32768 then (effAddr x i a s).setWidth 12 else s.pc }
    ∧ u = (resolve x i a s).2 ∧ AccessFrame s u ∧ SameWords s u

/-! ## Arithmetic and logic -/

/-- R181, R182, R180 (decisions D20, D21, D23): AMR and SMR complete; with v the word at EA and t the exact signed sum
or difference, the register takes t modulo 65536, OV is set if t > 32767, UF if t < -32768, neither is cleared,
and nothing else but the cache and OOB changes. -/
def Obligations.AmrAndSmrAddAndSubtractTheWord : Prop :=
  ∀ (s : State) (r : Gpr) (x : IndexSel) (i : Bool) (a : Nat), s.Inv → ∃ u v,
    exec (.amr r x i a) s = .next { u with
      gpr := s.gpr.set r (s.x r + v)
      cc := { s.cc with
        ov := s.cc.ov || decide (32767 < (s.x r).toInt + v.toInt)
        uf := s.cc.uf || decide ((s.x r).toInt + v.toInt < -32768) } }
    ∧ exec (.smr r x i a) s = .next { u with
      gpr := s.gpr.set r (s.x r - v)
      cc := { s.cc with
        ov := s.cc.ov || decide (32767 < (s.x r).toInt - v.toInt)
        uf := s.cc.uf || decide ((s.x r).toInt - v.toInt < -32768) } }
    ∧ v = (resolve x i a s).2.view (effAddr x i a s)
    ∧ (s.inBounds (effAddr x i a s) = true → v = s.view (effAddr x i a s))
    ∧ u = (memRead (effAddr x i a s) (resolve x i a s).2).2 ∧ AccessFrame s u ∧ SameWords s u

/-- R183, R184 (decisions D20, D21, D23): AIR and SIR complete with the sum or difference modulo 65536; AIR can only
set OV and SIR only UF; nothing else changes. -/
def Obligations.AirAndSirAddAndSubtractTheImmediate : Prop :=
  ∀ (s : State) (r : Gpr) (imm : Nat),
    exec (.air r imm) s = .next { s with
      gpr := s.gpr.set r (s.x r + BitVec.ofNat 16 imm)
      cc := { s.cc with ov := s.cc.ov || decide (32767 < (s.x r).toInt + imm) } }
    ∧ exec (.sir r imm) s = .next { s with
      gpr := s.gpr.set r (s.x r - BitVec.ofNat 16 imm)
      cc := { s.cc with uf := s.cc.uf || decide ((s.x r).toInt - imm < -32768) } }

/-- R185, R191 (decisions D24, D39): MLT on GPR[0] and GPR[2], equal or not, completes with the exact signed product
as high half in rx and low half in rx+1; OV is set when the high half is not 0 and never cleared; nothing else
changes. -/
def Obligations.MltGivesTheExactProduct : Prop :=
  ∀ (s : State) (rx ry second : Gpr), (rx = .r0 ∧ second = .r1 ∨ rx = .r2 ∧ second = .r3) → (ry = .r0 ∨ ry = .r2) →
    ∃ hi lo : Word,
      exec (.mlt rx ry) s = .next { s with
        gpr := (s.gpr.set rx hi).set second lo
        cc := { s.cc with ov := s.cc.ov || decide (hi ≠ 0) } }
      ∧ hi.toInt * 65536 + lo.toNat = (s.x rx).toInt * (s.x ry).toInt

/-- R186, R191 (decisions D24, D25): DVD on GPR[0] and GPR[2] completes; a zero divisor sets DZ and nothing else;
otherwise quotient q and remainder m satisfy a = q * b + m with |m| < |b| and m of the sign of a, and go to rx and
rx+1 modulo 65536; no flag changes. -/
def Obligations.DvdGivesQuotientAndRemainder : Prop :=
  ∀ (s : State) (rx ry second : Gpr), (rx = .r0 ∧ second = .r1 ∨ rx = .r2 ∧ second = .r3) → (ry = .r0 ∨ ry = .r2) →
    (s.x ry = 0 → exec (.dvd rx ry) s = .next { s with cc := { s.cc with dz := true } })
    ∧ (s.x ry ≠ 0 → ∃ q m : Int,
        exec (.dvd rx ry) s = .next { s with
          gpr := (s.gpr.set rx (BitVec.ofInt 16 q)).set second (BitVec.ofInt 16 m) }
        ∧ (s.x rx).toInt = q * (s.x ry).toInt + m ∧ |m| < |(s.x ry).toInt|
        ∧ (0 ≤ (s.x rx).toInt → 0 ≤ m) ∧ ((s.x rx).toInt ≤ 0 → m ≤ 0))

/-- R191 (decision D24): MLT and DVD with GPR[1] or GPR[3] in either place end in InvalidRegisterPair, before anything
is read or written, the zero divisor included. -/
def Obligations.OddRegisterPairIsAnError : Prop :=
  ∀ (s : State) (rx ry : Gpr), (rx = .r1 ∨ rx = .r3 ∨ ry = .r1 ∨ ry = .r3) →
    exec (.mlt rx ry) s = .fault (.invalidRegisterPair rx ry s)
    ∧ exec (.dvd rx ry) s = .fault (.invalidRegisterPair rx ry s)

/-- R187 (decisions D20, D23): TRR completes; EQ is 1 when the registers are equal and 0 when they differ, whatever it
was; nothing else changes. -/
def Obligations.TrrWritesEqualBothWays : Prop :=
  ∀ (s : State) (rx ry : Gpr),
    exec (.trr rx ry) s = .next { s with cc := { s.cc with eq := s.x rx == s.x ry } }

/-- R188, R189, R190 (decision D23): AND, ORR and NOT complete; each bit of rx is the conjunction, the disjunction, the
complement; nothing else changes. -/
def Obligations.LogicWorksBitByBit : Prop :=
  ∀ (s : State) (rx ry : Gpr), ∃ va vo vn : Word,
    exec (.and rx ry) s = .next { s with gpr := s.gpr.set rx va }
    ∧ exec (.orr rx ry) s = .next { s with gpr := s.gpr.set rx vo }
    ∧ exec (.not rx) s = .next { s with gpr := s.gpr.set rx vn }
    ∧ ∀ k < 16, va.getLsbD k = ((s.x rx).getLsbD k && (s.x ry).getLsbD k)
        ∧ vo.getLsbD k = ((s.x rx).getLsbD k || (s.x ry).getLsbD k)
        ∧ vn.getLsbD k = !(s.x rx).getLsbD k

/-! ## Shift and rotate -/

/-- R200, R202 (decision D29): SRC completes; a left shift multiplies by 2^count modulo 65536 in either mode, a logical
right shift divides the pattern by 2^count, an arithmetic one is the floor of the signed value over 2^count;
nothing else changes. -/
def Obligations.SrcShifts : Prop :=
  ∀ (s : State) (r : Gpr) (n : Nat), n < 16 → ∃ vl vr va : Word,
    exec (.src r .arithmetic .left n) s = .next { s with gpr := s.gpr.set r vl }
    ∧ exec (.src r .logical .left n) s = .next { s with gpr := s.gpr.set r vl }
    ∧ exec (.src r .logical .right n) s = .next { s with gpr := s.gpr.set r vr }
    ∧ exec (.src r .arithmetic .right n) s = .next { s with gpr := s.gpr.set r va }
    ∧ vl.toNat = (s.x r).toNat * 2 ^ n % 65536 ∧ vr.toNat = (s.x r).toNat / 2 ^ n
    ∧ va.toInt = (s.x r).toInt.fdiv (2 ^ n)

/-- R201, R202 (decision D29): RRC completes; in either mode, rotating left moves bit k to place k + count modulo 16
and rotating right moves it back; nothing else changes. -/
def Obligations.RrcRotates : Prop :=
  ∀ (s : State) (r : Gpr) (mode : ShiftMode) (n : Nat), n < 16 → ∃ vl vr : Word,
    exec (.rrc r mode .left n) s = .next { s with gpr := s.gpr.set r vl }
    ∧ exec (.rrc r mode .right n) s = .next { s with gpr := s.gpr.set r vr }
    ∧ ∀ k < 16, vl.getLsbD ((k + n) % 16) = (s.x r).getLsbD k ∧ vr.getLsbD k = (s.x r).getLsbD ((k + n) % 16)

/-! ## Input/output and miscellaneous -/

/-- R210, R212, R215 (decision D30, assumption log 10): IN and CHK complete with the word the oracle supplies at this
call, for every device id; the call counter moves on, so no later call is this one; nothing else changes. -/
def Obligations.InAndChkTakeAFreshWord : Prop :=
  ∀ (s : State) (r : Gpr) (dev : Nat),
    exec (.inp r dev) s = .next { s with gpr := s.gpr.set r (Config.devIn s.draws dev), draws := s.draws + 1 }
    ∧ exec (.chk r dev) s = .next { s with gpr := s.gpr.set r (Config.devStatus s.draws dev), draws := s.draws + 1 }

/-- R211, R215 (decision D30, assumption log 11): OUT completes; the host observes one more event, after all earlier
ones, with the device id and the register's word; nothing else changes. -/
def Obligations.OutEmitsOneEvent : Prop :=
  ∀ (s : State) (r : Gpr) (dev : Nat),
    exec (.out r dev) s = .next { s with events := s.events ++ [{ dev := dev, value := s.x r }] }

/-- R213 (decision D18, assumption log 12): HLT completes and changes nothing but the report; and there is no halted
latch: what the next step does does not depend on the report. -/
def Obligations.HltOnlyReports : Prop :=
  (∀ s : State, exec .hlt s = .next { s with report := .halts })
  ∧ ∀ (opc : OpcodeMap) (s : State) (p : StepReport), stepWith opc { s with report := p } = stepWith opc s

/-- R214 (decisions D31, D44): TRAP completes. With m the state after the return address is stored and n the state after
the table address is read, word 2 reads as the incremented pc, pc takes the low 12 bits of the table entry, which
for an entry that exists is the word it held before the instruction, or the return address if it is word 2; every
other word that exists and every register is unchanged. -/
def Obligations.TrapGoesThroughTheTable : Prop :=
  ∀ (s : State) (code : Nat), s.Inv → ∃ u, ∃ target : Word,
    exec (.trap code) s = .next { u with pc := target.setWidth 12 }
    ∧ target = (memRead 0 (memWrite 2 (zextPc s.pc) s)).2.view (s.view 0 + BitVec.ofNat 16 code)
    ∧ (s.inBounds (s.view 0 + BitVec.ofNat 16 code) = true →
        target = if s.view 0 + BitVec.ofNat 16 code = 2 then zextPc s.pc else s.view (s.view 0 + BitVec.ofNat 16 code))
    ∧ (s.inBounds 2 = true → u.view 2 = zextPc s.pc)
    ∧ (∀ b, s.inBounds b = true → b ≠ 2 → u.view b = s.view b)
    ∧ u = (memRead (s.view 0 + BitVec.ofNat 16 code) (memRead 0 (memWrite 2 (zextPc s.pc) s)).2).2
    ∧ AccessFrame s u
end

