-- ==== Sys2Proof/Laws/Memory.lean ====
section
/-! SUPPORT. The memory array: read after write, and that every write keeps the canonical form. -/

namespace Sys2Proof.Machine

/-- Below every listed address a cell reads as unlisted. -/
theorem readCells_below {lo hi : Nat} {cs : List Host.Cell} (h : cellsWf lo hi cs = true) {a : Nat} (ha : a < lo) :
    readCells cs a = Memory.unlisted := by
  cases cs with
  | nil => rfl
  | cons c rest =>
    obtain ⟨k, b⟩ := c
    simp only [cellsWf, Bool.and_eq_true, decide_eq_true_eq] at h
    simp only [readCells]
    rw [if_pos (by omega)]

/-- The canonical form at a lower bound is one at any lower one. -/
theorem cellsWf_mono {lo lo' hi : Nat} {cs : List Host.Cell} (h : cellsWf lo hi cs = true) (hl : lo' ≤ lo) :
    cellsWf lo' hi cs = true := by
  cases cs with
  | nil => rfl
  | cons c rest =>
    obtain ⟨k, b⟩ := c
    simp only [cellsWf, Bool.and_eq_true, decide_eq_true_eq] at h ⊢
    exact ⟨⟨⟨by omega, h.1.1.2⟩, h.1.2⟩, h.2⟩

/-- A write keeps the canonical form. -/
theorem cellsWf_writeCells {lo hi : Nat} {cs : List Host.Cell} (h : cellsWf lo hi cs = true) {a : Nat} (v : Byte)
    (hlo : lo ≤ a) (hhi : a < hi) : cellsWf lo hi (writeCells cs a v) = true := by
  induction cs generalizing lo with
  | nil =>
    simp only [writeCells]
    split
    · rfl
    · rename_i hv; simp [cellsWf, hlo, hhi, hv]
  | cons c rest ih =>
    obtain ⟨k, b⟩ := c
    have h0 := h
    simp only [cellsWf, Bool.and_eq_true, decide_eq_true_eq] at h
    obtain ⟨⟨⟨h1, h2⟩, h3⟩, h4⟩ := h
    simp only [writeCells]
    split
    · rename_i hak
      split
      · exact h0
      · rename_i hv
        simp only [cellsWf, Bool.and_eq_true, decide_eq_true_eq]
        exact ⟨⟨⟨hlo, hhi⟩, hv⟩, ⟨⟨by omega, h2⟩, h3⟩, h4⟩
    · split
      · rename_i hk
        subst hk
        split
        · exact cellsWf_mono h4 (by omega)
        · rename_i hv
          simp only [cellsWf, Bool.and_eq_true, decide_eq_true_eq]
          exact ⟨⟨⟨hlo, hhi⟩, hv⟩, h4⟩
      · simp only [cellsWf, Bool.and_eq_true, decide_eq_true_eq]
        exact ⟨⟨⟨h1, h2⟩, h3⟩, ih h4 (by omega)⟩

/-- Read after write, at the same cell and at any other. -/
theorem readCells_writeCells {lo hi : Nat} {cs : List Host.Cell} (h : cellsWf lo hi cs = true) (a c : Nat) (v : Byte) :
    readCells (writeCells cs a v) c = if c = a then v else readCells cs c := by
  induction cs generalizing lo with
  | nil =>
    simp only [writeCells]
    by_cases hv : v = Memory.unlisted
    · simp only [if_pos hv, readCells]; split <;> simp [hv]
    · simp only [if_neg hv, readCells]
      split
      · rw [if_neg (by omega)]
      · rfl
  | cons d rest ih =>
    obtain ⟨k, b⟩ := d
    have h0 := h
    simp only [cellsWf, Bool.and_eq_true, decide_eq_true_eq] at h
    obtain ⟨⟨⟨h1, h2⟩, h3⟩, h4⟩ := h
    simp only [writeCells]
    by_cases hak : a < k
    · simp only [if_pos hak]
      by_cases hv : v = Memory.unlisted
      · simp only [if_pos hv]
        by_cases hca : c = a
        · subst hca; rw [if_pos rfl, readCells, if_pos hak, hv]
        · simp [hca]
      · simp only [if_neg hv]
        rw [readCells]
        by_cases hca : c < a
        · rw [if_pos hca, if_neg (by omega)]
          simp only [readCells]
          rw [if_pos (by omega)]
        · rw [if_neg hca]
    · simp only [if_neg hak]
      by_cases hk : a = k
      · subst hk
        simp only [if_true]
        by_cases hv : v = Memory.unlisted
        · simp only [if_pos hv]
          by_cases hca : c = a
          · subst hca; simp [hv, readCells_below h4 (Nat.lt_succ_self c)]
          · simp only [if_neg hca, readCells]
            by_cases hlt : c < a
            · rw [if_pos hlt]; exact readCells_below h4 (by omega)
            · rw [if_neg hlt]
        · simp only [if_neg hv, readCells]
          by_cases hca : c = a
          · subst hca; simp
          · simp [hca]
      · simp only [if_neg hk, readCells]
        by_cases hck : c < k
        · rw [if_pos hck, if_neg (by omega), if_pos hck]
        · simp only [if_neg hck]
          by_cases hc : c = k
          · rw [if_pos hc, if_neg (by omega), if_pos hc]
          · simp only [if_neg hc]; exact ih h4

/-- What the canonical form of the memory array says. -/
theorem Memory.wf_iff (m : Memory) :
    m.wf = true ↔ 1 ≤ m.size ∧ m.size ≤ 65536 ∧ cellsWf 0 (2 * m.size) m.cells = true := by
  simp [Memory.wf, and_assoc]

@[simp] theorem Memory.setWord_size (m : Memory) (a : Nat) (v : Word) : (m.setWord a v).size = m.size := rfl

/-- Writing a word that exists keeps the canonical form (R52). -/
theorem Memory.wf_setWord {m : Memory} (h : m.wf = true) {a : Nat} (ha : a < m.size) (v : Word) :
    (m.setWord a v).wf = true := by
  rw [Memory.wf_iff] at h ⊢
  refine ⟨h.1, h.2.1, ?_⟩
  exact cellsWf_writeCells (cellsWf_writeCells h.2.2 _ (by omega) (by omega)) _ (by omega)
    (by show 2 * a + 1 < 2 * m.size; omega)

/-- A word is its high byte and its low byte. -/
theorem word_bytes (v : Word) : (v.extractLsb' 8 8 ++ v.extractLsb' 0 8 : BitVec (8 + 8)) = v := by
  apply BitVec.eq_of_getLsbD_eq
  intro i hi
  simp only [BitVec.getLsbD_append, BitVec.getLsbD_extractLsb']
  by_cases h : i < 8
  · simp [h]
  · have h8 : i - 8 < 8 := by omega
    have : 8 + (i - 8) = i := by omega
    simp [h, h8, this]

/-- Read after write of a word, at the same address and at any other (R51, R52). -/
theorem Memory.word_setWord {m : Memory} (h : m.wf = true) {a : Nat} (ha : a < m.size) (v : Word) (c : Nat) :
    (m.setWord a v).word c = if c = a then v else m.word c := by
  rw [Memory.wf_iff] at h
  have h1 := cellsWf_writeCells h.2.2 (a := 2 * a) (v.extractLsb' 8 8) (by omega) (by omega)
  simp only [Memory.word, Memory.byte, Memory.setWord, readCells_writeCells h1, readCells_writeCells h.2.2]
  by_cases hc : c = a
  · subst hc
    rw [if_neg (by omega), if_pos rfl, if_pos rfl, if_pos rfl]
    exact word_bytes v
  · rw [if_neg (by omega), if_neg (by omega), if_neg (by omega), if_neg (by omega), if_neg hc]

end Sys2Proof.Machine
end

