-- ==== Sys2Proof/Laws/State.lean ====
section
/-! SUPPORT. One lemma per field per update of the state, each true by unfolding the update once. -/

namespace Sys2Proof.Machine

/-! ### setGpr -/

@[simp] theorem State.setGpr_gpr (s : State) (r : Gpr) (v : Word) : (s.setGpr r v).gpr = s.gpr.set r v := rfl
@[simp] theorem State.setGpr_ixr (s : State) (r : Gpr) (v : Word) : (s.setGpr r v).ixr = s.ixr := rfl
@[simp] theorem State.setGpr_pc (s : State) (r : Gpr) (v : Word) : (s.setGpr r v).pc = s.pc := rfl
@[simp] theorem State.setGpr_ir (s : State) (r : Gpr) (v : Word) : (s.setGpr r v).ir = s.ir := rfl
@[simp] theorem State.setGpr_cc (s : State) (r : Gpr) (v : Word) : (s.setGpr r v).cc = s.cc := rfl
@[simp] theorem State.setGpr_mfr (s : State) (r : Gpr) (v : Word) : (s.setGpr r v).mfr = s.mfr := rfl
@[simp] theorem State.setGpr_mem (s : State) (r : Gpr) (v : Word) : (s.setGpr r v).mem = s.mem := rfl
@[simp] theorem State.setGpr_lines (s : State) (r : Gpr) (v : Word) : (s.setGpr r v).lines = s.lines := rfl
@[simp] theorem State.setGpr_lru (s : State) (r : Gpr) (v : Word) : (s.setGpr r v).lru = s.lru := rfl
@[simp] theorem State.setGpr_draws (s : State) (r : Gpr) (v : Word) : (s.setGpr r v).draws = s.draws := rfl
@[simp] theorem State.setGpr_events (s : State) (r : Gpr) (v : Word) : (s.setGpr r v).events = s.events := rfl
@[simp] theorem State.setGpr_report (s : State) (r : Gpr) (v : Word) : (s.setGpr r v).report = s.report := rfl
@[simp] theorem State.setGpr_ixrAt (s : State) (r : Gpr) (v : Word) (j' : Ixr) : (s.setGpr r v).ixrAt j' = s.ixrAt j' := rfl
@[simp] theorem State.setGpr_line (s : State) (r : Gpr) (v : Word) (n : Nat) : (s.setGpr r v).line n = s.line n := rfl
@[simp] theorem State.setGpr_arrayWord (s : State) (r : Gpr) (v : Word) (n : Nat) : (s.setGpr r v).arrayWord n = s.arrayWord n := rfl
@[simp] theorem State.setGpr_lookup (s : State) (r : Gpr) (v : Word) (tg : BitVec 13) : (s.setGpr r v).lookup tg = s.lookup tg := rfl
@[simp] theorem State.setGpr_view (s : State) (r : Gpr) (v : Word) (a : Word) : (s.setGpr r v).view a = s.view a := rfl

/-! ### setIxr -/

@[simp] theorem State.setIxr_gpr (s : State) (j : Ixr) (v : Word) : (s.setIxr j v).gpr = s.gpr := rfl
@[simp] theorem State.setIxr_ixr (s : State) (j : Ixr) (v : Word) : (s.setIxr j v).ixr = s.ixr.set j v := rfl
@[simp] theorem State.setIxr_pc (s : State) (j : Ixr) (v : Word) : (s.setIxr j v).pc = s.pc := rfl
@[simp] theorem State.setIxr_ir (s : State) (j : Ixr) (v : Word) : (s.setIxr j v).ir = s.ir := rfl
@[simp] theorem State.setIxr_cc (s : State) (j : Ixr) (v : Word) : (s.setIxr j v).cc = s.cc := rfl
@[simp] theorem State.setIxr_mfr (s : State) (j : Ixr) (v : Word) : (s.setIxr j v).mfr = s.mfr := rfl
@[simp] theorem State.setIxr_mem (s : State) (j : Ixr) (v : Word) : (s.setIxr j v).mem = s.mem := rfl
@[simp] theorem State.setIxr_lines (s : State) (j : Ixr) (v : Word) : (s.setIxr j v).lines = s.lines := rfl
@[simp] theorem State.setIxr_lru (s : State) (j : Ixr) (v : Word) : (s.setIxr j v).lru = s.lru := rfl
@[simp] theorem State.setIxr_draws (s : State) (j : Ixr) (v : Word) : (s.setIxr j v).draws = s.draws := rfl
@[simp] theorem State.setIxr_events (s : State) (j : Ixr) (v : Word) : (s.setIxr j v).events = s.events := rfl
@[simp] theorem State.setIxr_report (s : State) (j : Ixr) (v : Word) : (s.setIxr j v).report = s.report := rfl
@[simp] theorem State.setIxr_x (s : State) (j : Ixr) (v : Word) (r' : Gpr) : (s.setIxr j v).x r' = s.x r' := rfl
@[simp] theorem State.setIxr_line (s : State) (j : Ixr) (v : Word) (n : Nat) : (s.setIxr j v).line n = s.line n := rfl
@[simp] theorem State.setIxr_arrayWord (s : State) (j : Ixr) (v : Word) (n : Nat) : (s.setIxr j v).arrayWord n = s.arrayWord n := rfl
@[simp] theorem State.setIxr_lookup (s : State) (j : Ixr) (v : Word) (tg : BitVec 13) : (s.setIxr j v).lookup tg = s.lookup tg := rfl
@[simp] theorem State.setIxr_view (s : State) (j : Ixr) (v : Word) (a : Word) : (s.setIxr j v).view a = s.view a := rfl

/-! ### setPc -/

@[simp] theorem State.setPc_gpr (s : State) (t : BitVec 12) : (s.setPc t).gpr = s.gpr := rfl
@[simp] theorem State.setPc_ixr (s : State) (t : BitVec 12) : (s.setPc t).ixr = s.ixr := rfl
@[simp] theorem State.setPc_pc (s : State) (t : BitVec 12) : (s.setPc t).pc = t := rfl
@[simp] theorem State.setPc_ir (s : State) (t : BitVec 12) : (s.setPc t).ir = s.ir := rfl
@[simp] theorem State.setPc_cc (s : State) (t : BitVec 12) : (s.setPc t).cc = s.cc := rfl
@[simp] theorem State.setPc_mfr (s : State) (t : BitVec 12) : (s.setPc t).mfr = s.mfr := rfl
@[simp] theorem State.setPc_mem (s : State) (t : BitVec 12) : (s.setPc t).mem = s.mem := rfl
@[simp] theorem State.setPc_lines (s : State) (t : BitVec 12) : (s.setPc t).lines = s.lines := rfl
@[simp] theorem State.setPc_lru (s : State) (t : BitVec 12) : (s.setPc t).lru = s.lru := rfl
@[simp] theorem State.setPc_draws (s : State) (t : BitVec 12) : (s.setPc t).draws = s.draws := rfl
@[simp] theorem State.setPc_events (s : State) (t : BitVec 12) : (s.setPc t).events = s.events := rfl
@[simp] theorem State.setPc_report (s : State) (t : BitVec 12) : (s.setPc t).report = s.report := rfl
@[simp] theorem State.setPc_x (s : State) (t : BitVec 12) (r' : Gpr) : (s.setPc t).x r' = s.x r' := rfl
@[simp] theorem State.setPc_ixrAt (s : State) (t : BitVec 12) (j' : Ixr) : (s.setPc t).ixrAt j' = s.ixrAt j' := rfl
@[simp] theorem State.setPc_line (s : State) (t : BitVec 12) (n : Nat) : (s.setPc t).line n = s.line n := rfl
@[simp] theorem State.setPc_arrayWord (s : State) (t : BitVec 12) (n : Nat) : (s.setPc t).arrayWord n = s.arrayWord n := rfl
@[simp] theorem State.setPc_lookup (s : State) (t : BitVec 12) (tg : BitVec 13) : (s.setPc t).lookup tg = s.lookup tg := rfl
@[simp] theorem State.setPc_view (s : State) (t : BitVec 12) (a : Word) : (s.setPc t).view a = s.view a := rfl

/-! ### raiseMfr -/

@[simp] theorem State.raiseMfr_gpr (s : State) (f : MfrFlag) : (s.raiseMfr f).gpr = s.gpr := rfl
@[simp] theorem State.raiseMfr_ixr (s : State) (f : MfrFlag) : (s.raiseMfr f).ixr = s.ixr := rfl
@[simp] theorem State.raiseMfr_pc (s : State) (f : MfrFlag) : (s.raiseMfr f).pc = s.pc := rfl
@[simp] theorem State.raiseMfr_ir (s : State) (f : MfrFlag) : (s.raiseMfr f).ir = s.ir := rfl
@[simp] theorem State.raiseMfr_cc (s : State) (f : MfrFlag) : (s.raiseMfr f).cc = s.cc := rfl
@[simp] theorem State.raiseMfr_mfr (s : State) (f : MfrFlag) : (s.raiseMfr f).mfr = s.mfr.set f true := rfl
@[simp] theorem State.raiseMfr_mem (s : State) (f : MfrFlag) : (s.raiseMfr f).mem = s.mem := rfl
@[simp] theorem State.raiseMfr_lines (s : State) (f : MfrFlag) : (s.raiseMfr f).lines = s.lines := rfl
@[simp] theorem State.raiseMfr_lru (s : State) (f : MfrFlag) : (s.raiseMfr f).lru = s.lru := rfl
@[simp] theorem State.raiseMfr_draws (s : State) (f : MfrFlag) : (s.raiseMfr f).draws = s.draws := rfl
@[simp] theorem State.raiseMfr_events (s : State) (f : MfrFlag) : (s.raiseMfr f).events = s.events := rfl
@[simp] theorem State.raiseMfr_report (s : State) (f : MfrFlag) : (s.raiseMfr f).report = s.report := rfl
@[simp] theorem State.raiseMfr_x (s : State) (f : MfrFlag) (r' : Gpr) : (s.raiseMfr f).x r' = s.x r' := rfl
@[simp] theorem State.raiseMfr_ixrAt (s : State) (f : MfrFlag) (j' : Ixr) : (s.raiseMfr f).ixrAt j' = s.ixrAt j' := rfl
@[simp] theorem State.raiseMfr_line (s : State) (f : MfrFlag) (n : Nat) : (s.raiseMfr f).line n = s.line n := rfl
@[simp] theorem State.raiseMfr_arrayWord (s : State) (f : MfrFlag) (n : Nat) : (s.raiseMfr f).arrayWord n = s.arrayWord n := rfl
@[simp] theorem State.raiseMfr_lookup (s : State) (f : MfrFlag) (tg : BitVec 13) : (s.raiseMfr f).lookup tg = s.lookup tg := rfl
@[simp] theorem State.raiseMfr_view (s : State) (f : MfrFlag) (a : Word) : (s.raiseMfr f).view a = s.view a := rfl

/-! ### setOverflow -/

@[simp] theorem setOverflow_gpr (s : State) (t : Int) : (setOverflow t s).gpr = s.gpr := rfl
@[simp] theorem setOverflow_ixr (s : State) (t : Int) : (setOverflow t s).ixr = s.ixr := rfl
@[simp] theorem setOverflow_pc (s : State) (t : Int) : (setOverflow t s).pc = s.pc := rfl
@[simp] theorem setOverflow_ir (s : State) (t : Int) : (setOverflow t s).ir = s.ir := rfl
@[simp] theorem setOverflow_cc (s : State) (t : Int) : (setOverflow t s).cc = { s.cc with ov := s.cc.ov || decide (32767 < t) } := rfl
@[simp] theorem setOverflow_mfr (s : State) (t : Int) : (setOverflow t s).mfr = s.mfr := rfl
@[simp] theorem setOverflow_mem (s : State) (t : Int) : (setOverflow t s).mem = s.mem := rfl
@[simp] theorem setOverflow_lines (s : State) (t : Int) : (setOverflow t s).lines = s.lines := rfl
@[simp] theorem setOverflow_lru (s : State) (t : Int) : (setOverflow t s).lru = s.lru := rfl
@[simp] theorem setOverflow_draws (s : State) (t : Int) : (setOverflow t s).draws = s.draws := rfl
@[simp] theorem setOverflow_events (s : State) (t : Int) : (setOverflow t s).events = s.events := rfl
@[simp] theorem setOverflow_report (s : State) (t : Int) : (setOverflow t s).report = s.report := rfl
@[simp] theorem setOverflow_x (s : State) (t : Int) (r' : Gpr) : (setOverflow t s).x r' = s.x r' := rfl
@[simp] theorem setOverflow_ixrAt (s : State) (t : Int) (j' : Ixr) : (setOverflow t s).ixrAt j' = s.ixrAt j' := rfl
@[simp] theorem setOverflow_line (s : State) (t : Int) (n : Nat) : (setOverflow t s).line n = s.line n := rfl
@[simp] theorem setOverflow_arrayWord (s : State) (t : Int) (n : Nat) : (setOverflow t s).arrayWord n = s.arrayWord n := rfl
@[simp] theorem setOverflow_lookup (s : State) (t : Int) (tg : BitVec 13) : (setOverflow t s).lookup tg = s.lookup tg := rfl
@[simp] theorem setOverflow_view (s : State) (t : Int) (a : Word) : (setOverflow t s).view a = s.view a := rfl

/-! ### setUnderflow -/

@[simp] theorem setUnderflow_gpr (s : State) (t : Int) : (setUnderflow t s).gpr = s.gpr := rfl
@[simp] theorem setUnderflow_ixr (s : State) (t : Int) : (setUnderflow t s).ixr = s.ixr := rfl
@[simp] theorem setUnderflow_pc (s : State) (t : Int) : (setUnderflow t s).pc = s.pc := rfl
@[simp] theorem setUnderflow_ir (s : State) (t : Int) : (setUnderflow t s).ir = s.ir := rfl
@[simp] theorem setUnderflow_cc (s : State) (t : Int) : (setUnderflow t s).cc = { s.cc with uf := s.cc.uf || decide (t < -32768) } := rfl
@[simp] theorem setUnderflow_mfr (s : State) (t : Int) : (setUnderflow t s).mfr = s.mfr := rfl
@[simp] theorem setUnderflow_mem (s : State) (t : Int) : (setUnderflow t s).mem = s.mem := rfl
@[simp] theorem setUnderflow_lines (s : State) (t : Int) : (setUnderflow t s).lines = s.lines := rfl
@[simp] theorem setUnderflow_lru (s : State) (t : Int) : (setUnderflow t s).lru = s.lru := rfl
@[simp] theorem setUnderflow_draws (s : State) (t : Int) : (setUnderflow t s).draws = s.draws := rfl
@[simp] theorem setUnderflow_events (s : State) (t : Int) : (setUnderflow t s).events = s.events := rfl
@[simp] theorem setUnderflow_report (s : State) (t : Int) : (setUnderflow t s).report = s.report := rfl
@[simp] theorem setUnderflow_x (s : State) (t : Int) (r' : Gpr) : (setUnderflow t s).x r' = s.x r' := rfl
@[simp] theorem setUnderflow_ixrAt (s : State) (t : Int) (j' : Ixr) : (setUnderflow t s).ixrAt j' = s.ixrAt j' := rfl
@[simp] theorem setUnderflow_line (s : State) (t : Int) (n : Nat) : (setUnderflow t s).line n = s.line n := rfl
@[simp] theorem setUnderflow_arrayWord (s : State) (t : Int) (n : Nat) : (setUnderflow t s).arrayWord n = s.arrayWord n := rfl
@[simp] theorem setUnderflow_lookup (s : State) (t : Int) (tg : BitVec 13) : (setUnderflow t s).lookup tg = s.lookup tg := rfl
@[simp] theorem setUnderflow_view (s : State) (t : Int) (a : Word) : (setUnderflow t s).view a = s.view a := rfl

/-! ### setMltOverflow -/

@[simp] theorem setMltOverflow_gpr (s : State) (hi : Word) : (setMltOverflow hi s).gpr = s.gpr := rfl
@[simp] theorem setMltOverflow_ixr (s : State) (hi : Word) : (setMltOverflow hi s).ixr = s.ixr := rfl
@[simp] theorem setMltOverflow_pc (s : State) (hi : Word) : (setMltOverflow hi s).pc = s.pc := rfl
@[simp] theorem setMltOverflow_ir (s : State) (hi : Word) : (setMltOverflow hi s).ir = s.ir := rfl
@[simp] theorem setMltOverflow_cc (s : State) (hi : Word) : (setMltOverflow hi s).cc = { s.cc with ov := s.cc.ov || decide (hi ≠ 0) } := rfl
@[simp] theorem setMltOverflow_mfr (s : State) (hi : Word) : (setMltOverflow hi s).mfr = s.mfr := rfl
@[simp] theorem setMltOverflow_mem (s : State) (hi : Word) : (setMltOverflow hi s).mem = s.mem := rfl
@[simp] theorem setMltOverflow_lines (s : State) (hi : Word) : (setMltOverflow hi s).lines = s.lines := rfl
@[simp] theorem setMltOverflow_lru (s : State) (hi : Word) : (setMltOverflow hi s).lru = s.lru := rfl
@[simp] theorem setMltOverflow_draws (s : State) (hi : Word) : (setMltOverflow hi s).draws = s.draws := rfl
@[simp] theorem setMltOverflow_events (s : State) (hi : Word) : (setMltOverflow hi s).events = s.events := rfl
@[simp] theorem setMltOverflow_report (s : State) (hi : Word) : (setMltOverflow hi s).report = s.report := rfl
@[simp] theorem setMltOverflow_x (s : State) (hi : Word) (r' : Gpr) : (setMltOverflow hi s).x r' = s.x r' := rfl
@[simp] theorem setMltOverflow_ixrAt (s : State) (hi : Word) (j' : Ixr) : (setMltOverflow hi s).ixrAt j' = s.ixrAt j' := rfl
@[simp] theorem setMltOverflow_line (s : State) (hi : Word) (n : Nat) : (setMltOverflow hi s).line n = s.line n := rfl
@[simp] theorem setMltOverflow_arrayWord (s : State) (hi : Word) (n : Nat) : (setMltOverflow hi s).arrayWord n = s.arrayWord n := rfl
@[simp] theorem setMltOverflow_lookup (s : State) (hi : Word) (tg : BitVec 13) : (setMltOverflow hi s).lookup tg = s.lookup tg := rfl
@[simp] theorem setMltOverflow_view (s : State) (hi : Word) (a : Word) : (setMltOverflow hi s).view a = s.view a := rfl

/-! ### setDivideByZero -/

@[simp] theorem setDivideByZero_gpr (s : State) : (setDivideByZero s).gpr = s.gpr := rfl
@[simp] theorem setDivideByZero_ixr (s : State) : (setDivideByZero s).ixr = s.ixr := rfl
@[simp] theorem setDivideByZero_pc (s : State) : (setDivideByZero s).pc = s.pc := rfl
@[simp] theorem setDivideByZero_ir (s : State) : (setDivideByZero s).ir = s.ir := rfl
@[simp] theorem setDivideByZero_cc (s : State) : (setDivideByZero s).cc = { s.cc with dz := true } := rfl
@[simp] theorem setDivideByZero_mfr (s : State) : (setDivideByZero s).mfr = s.mfr := rfl
@[simp] theorem setDivideByZero_mem (s : State) : (setDivideByZero s).mem = s.mem := rfl
@[simp] theorem setDivideByZero_lines (s : State) : (setDivideByZero s).lines = s.lines := rfl
@[simp] theorem setDivideByZero_lru (s : State) : (setDivideByZero s).lru = s.lru := rfl
@[simp] theorem setDivideByZero_draws (s : State) : (setDivideByZero s).draws = s.draws := rfl
@[simp] theorem setDivideByZero_events (s : State) : (setDivideByZero s).events = s.events := rfl
@[simp] theorem setDivideByZero_report (s : State) : (setDivideByZero s).report = s.report := rfl
@[simp] theorem setDivideByZero_x (s : State) (r' : Gpr) : (setDivideByZero s).x r' = s.x r' := rfl
@[simp] theorem setDivideByZero_ixrAt (s : State) (j' : Ixr) : (setDivideByZero s).ixrAt j' = s.ixrAt j' := rfl
@[simp] theorem setDivideByZero_line (s : State) (n : Nat) : (setDivideByZero s).line n = s.line n := rfl
@[simp] theorem setDivideByZero_arrayWord (s : State) (n : Nat) : (setDivideByZero s).arrayWord n = s.arrayWord n := rfl
@[simp] theorem setDivideByZero_lookup (s : State) (tg : BitVec 13) : (setDivideByZero s).lookup tg = s.lookup tg := rfl
@[simp] theorem setDivideByZero_view (s : State) (a : Word) : (setDivideByZero s).view a = s.view a := rfl

/-! ### writeEqual -/

@[simp] theorem writeEqual_gpr (s : State) (a b : Word) : (writeEqual a b s).gpr = s.gpr := rfl
@[simp] theorem writeEqual_ixr (s : State) (a b : Word) : (writeEqual a b s).ixr = s.ixr := rfl
@[simp] theorem writeEqual_pc (s : State) (a b : Word) : (writeEqual a b s).pc = s.pc := rfl
@[simp] theorem writeEqual_ir (s : State) (a b : Word) : (writeEqual a b s).ir = s.ir := rfl
@[simp] theorem writeEqual_cc (s : State) (a b : Word) : (writeEqual a b s).cc = { s.cc with eq := decide (a = b) } := rfl
@[simp] theorem writeEqual_mfr (s : State) (a b : Word) : (writeEqual a b s).mfr = s.mfr := rfl
@[simp] theorem writeEqual_mem (s : State) (a b : Word) : (writeEqual a b s).mem = s.mem := rfl
@[simp] theorem writeEqual_lines (s : State) (a b : Word) : (writeEqual a b s).lines = s.lines := rfl
@[simp] theorem writeEqual_lru (s : State) (a b : Word) : (writeEqual a b s).lru = s.lru := rfl
@[simp] theorem writeEqual_draws (s : State) (a b : Word) : (writeEqual a b s).draws = s.draws := rfl
@[simp] theorem writeEqual_events (s : State) (a b : Word) : (writeEqual a b s).events = s.events := rfl
@[simp] theorem writeEqual_report (s : State) (a b : Word) : (writeEqual a b s).report = s.report := rfl
@[simp] theorem writeEqual_x (s : State) (a b : Word) (r' : Gpr) : (writeEqual a b s).x r' = s.x r' := rfl
@[simp] theorem writeEqual_ixrAt (s : State) (a b : Word) (j' : Ixr) : (writeEqual a b s).ixrAt j' = s.ixrAt j' := rfl
@[simp] theorem writeEqual_line (s : State) (a b : Word) (n : Nat) : (writeEqual a b s).line n = s.line n := rfl
@[simp] theorem writeEqual_arrayWord (s : State) (a b : Word) (n : Nat) : (writeEqual a b s).arrayWord n = s.arrayWord n := rfl
@[simp] theorem writeEqual_lookup (s : State) (a b : Word) (tg : BitVec 13) : (writeEqual a b s).lookup tg = s.lookup tg := rfl
@[simp] theorem writeEqual_view (s : State) (a b : Word) (c : Word) : (writeEqual a b s).view c = s.view c := rfl

/-! ### setLine -/

@[simp] theorem State.setLine_gpr (s : State) (i : Nat) (l : Line) : (s.setLine i l).gpr = s.gpr := rfl
@[simp] theorem State.setLine_ixr (s : State) (i : Nat) (l : Line) : (s.setLine i l).ixr = s.ixr := rfl
@[simp] theorem State.setLine_pc (s : State) (i : Nat) (l : Line) : (s.setLine i l).pc = s.pc := rfl
@[simp] theorem State.setLine_ir (s : State) (i : Nat) (l : Line) : (s.setLine i l).ir = s.ir := rfl
@[simp] theorem State.setLine_cc (s : State) (i : Nat) (l : Line) : (s.setLine i l).cc = s.cc := rfl
@[simp] theorem State.setLine_mfr (s : State) (i : Nat) (l : Line) : (s.setLine i l).mfr = s.mfr := rfl
@[simp] theorem State.setLine_mem (s : State) (i : Nat) (l : Line) : (s.setLine i l).mem = s.mem := rfl
@[simp] theorem State.setLine_lines (s : State) (i : Nat) (l : Line) : (s.setLine i l).lines = s.lines.set i l := rfl
@[simp] theorem State.setLine_lru (s : State) (i : Nat) (l : Line) : (s.setLine i l).lru = s.lru := rfl
@[simp] theorem State.setLine_draws (s : State) (i : Nat) (l : Line) : (s.setLine i l).draws = s.draws := rfl
@[simp] theorem State.setLine_events (s : State) (i : Nat) (l : Line) : (s.setLine i l).events = s.events := rfl
@[simp] theorem State.setLine_report (s : State) (i : Nat) (l : Line) : (s.setLine i l).report = s.report := rfl
@[simp] theorem State.setLine_x (s : State) (i : Nat) (l : Line) (r' : Gpr) : (s.setLine i l).x r' = s.x r' := rfl
@[simp] theorem State.setLine_ixrAt (s : State) (i : Nat) (l : Line) (j' : Ixr) : (s.setLine i l).ixrAt j' = s.ixrAt j' := rfl
@[simp] theorem State.setLine_arrayWord (s : State) (i : Nat) (l : Line) (n : Nat) : (s.setLine i l).arrayWord n = s.arrayWord n := rfl

/-! ### touch -/

@[simp] theorem touch_gpr (s : State) (i : Nat) : (touch i s).gpr = s.gpr := rfl
@[simp] theorem touch_ixr (s : State) (i : Nat) : (touch i s).ixr = s.ixr := rfl
@[simp] theorem touch_pc (s : State) (i : Nat) : (touch i s).pc = s.pc := rfl
@[simp] theorem touch_ir (s : State) (i : Nat) : (touch i s).ir = s.ir := rfl
@[simp] theorem touch_cc (s : State) (i : Nat) : (touch i s).cc = s.cc := rfl
@[simp] theorem touch_mfr (s : State) (i : Nat) : (touch i s).mfr = s.mfr := rfl
@[simp] theorem touch_mem (s : State) (i : Nat) : (touch i s).mem = s.mem := rfl
@[simp] theorem touch_lines (s : State) (i : Nat) : (touch i s).lines = s.lines := rfl
@[simp] theorem touch_lru (s : State) (i : Nat) : (touch i s).lru = s.lru.erase i ++ [i] := rfl
@[simp] theorem touch_draws (s : State) (i : Nat) : (touch i s).draws = s.draws := rfl
@[simp] theorem touch_events (s : State) (i : Nat) : (touch i s).events = s.events := rfl
@[simp] theorem touch_report (s : State) (i : Nat) : (touch i s).report = s.report := rfl
@[simp] theorem touch_x (s : State) (i : Nat) (r' : Gpr) : (touch i s).x r' = s.x r' := rfl
@[simp] theorem touch_ixrAt (s : State) (i : Nat) (j' : Ixr) : (touch i s).ixrAt j' = s.ixrAt j' := rfl
@[simp] theorem touch_line (s : State) (i : Nat) (n : Nat) : (touch i s).line n = s.line n := rfl
@[simp] theorem touch_arrayWord (s : State) (i : Nat) (n : Nat) : (touch i s).arrayWord n = s.arrayWord n := rfl
@[simp] theorem touch_lookup (s : State) (i : Nat) (tg : BitVec 13) : (touch i s).lookup tg = s.lookup tg := rfl
@[simp] theorem touch_view (s : State) (i : Nat) (a : Word) : (touch i s).view a = s.view a := rfl

/-! ### Register files and flags -/

theorem GprFile.get_set (g : GprFile) (r q : Gpr) (v : Word) :
    (g.set r v).get q = if q = r then v else g.get q := by
  cases r <;> cases q <;> rfl

theorem IxrFile.get_set (x : IxrFile) (j k : Ixr) (v : Word) :
    (x.set j v).get k = if k = j then v else x.get k := by
  cases j <;> cases k <;> rfl

theorem CondCodes.get_set (c : CondCodes) (f g : CcFlag) (b : Bool) :
    (c.set f b).get g = if g = f then b else c.get g := by
  cases f <;> cases g <;> rfl

theorem FaultFlags.get_set (m : FaultFlags) (f g : MfrFlag) (b : Bool) :
    (m.set f b).get g = if g = f then b else m.get g := by
  cases f <;> cases g <;> rfl

/-- Writing a general register changes that register and no other. -/
theorem State.setGpr_x (s : State) (r q : Gpr) (v : Word) :
    (s.setGpr r v).x q = if q = r then v else s.x q := GprFile.get_set s.gpr r q v

@[simp] theorem State.setGpr_x_self (s : State) (r : Gpr) (v : Word) : (s.setGpr r v).x r = v := by
  simp [State.setGpr_x]

/-- Writing an index register changes that register and no other. -/
theorem State.setIxr_ixrAt (s : State) (j k : Ixr) (v : Word) :
    (s.setIxr j v).ixrAt k = if k = j then v else s.ixrAt k := IxrFile.get_set s.ixr j k v

@[simp] theorem State.setIxr_ixrAt_self (s : State) (j : Ixr) (v : Word) : (s.setIxr j v).ixrAt j = v := by
  simp [State.setIxr_ixrAt]

end Sys2Proof.Machine
end

