-- ==== Sys2Proof/Laws/Cache.lean ====
section
/-! SUPPORT. The cache: what each operation of R55 to R60 does, that it keeps the invariant, and that memory reads
the same through `View`. -/

namespace Sys2Proof.Machine

/-! ### Blocks and addresses -/

theorem Block.get_set (b : Vector Word 8) (o p : Fin 8) (v : Word) :
    (b.set o.val v).get p = if p = o then v else b.get p := by
  simp only [Vector.get_eq_getElem, Vector.getElem_set]
  by_cases h : p = o
  · subst h; simp
  · have : o.val ≠ p.val := fun e => h (Fin.ext e.symm)
    simp [h, this]

/-- A 16-bit address is its block's base plus its offset (R54, R55). -/
theorem blockAddr_tagOf (a : Word) : blockAddr (tagOf a) (offsetOf a) = a.toNat := by
  have h : (tagOf a).toNat = a.toNat / 8 := by
    have := a.isLt
    simp [tagOf, BitVec.extractLsb'_toNat, Nat.shiftRight_eq_div_pow]
    omega
  simp only [blockAddr, h, offsetOf]
  omega

theorem blockAddr_inj {t t' : BitVec 13} {o o' : Fin 8} (h : blockAddr t o = blockAddr t' o') : t = t' ∧ o = o' := by
  simp only [blockAddr] at h
  exact ⟨BitVec.eq_of_toNat_eq (by omega), Fin.ext (by omega)⟩

/-- Two addresses with the same tag and offset are the same address. -/
theorem addr_ext {a b : Word} (ht : tagOf a = tagOf b) (ho : offsetOf a = offsetOf b) : a = b := by
  apply BitVec.eq_of_toNat_eq
  rw [← blockAddr_tagOf a, ← blockAddr_tagOf b, ht, ho]

theorem mem_offsets (o : Fin 8) : o ∈ offsets := by
  revert o; decide

theorem offsets_inBounds (tag : BitVec 13) (n : Nat) :
    (∀ o ∈ offsets, blockAddr tag o < n) ↔ blockAddr tag 7 < n := by
  constructor
  · intro h; exact h 7 (mem_offsets 7)
  · intro h o _
    have : o.val ≤ 7 := by omega
    simp only [blockAddr] at h ⊢
    have h7 : (7 : Fin 8).val = 7 := rfl
    omega

/-! ### Lines -/

theorem State.setLine_line (s : State) (i j : Nat) (l : Line) :
    (s.setLine i l).line j = if j = i ∧ i < s.lines.length then l else s.line j := by
  simp only [State.line, State.setLine_lines, List.getD_eq_getElem?_getD, List.getElem?_set]
  by_cases h : i = j
  · subst h
    by_cases hl : i < s.lines.length
    · simp [hl]
    · simp [hl]
  · have : ¬ j = i := fun e => h e.symm
    simp [h, this]

/-- A hit names a valid line with the tag (R55). -/
theorem State.lookup_some {s : State} {tag : BitVec 13} {i : Nat} (h : s.lookup tag = some i) :
    i < s.lines.length ∧ (s.line i).valid = true ∧ (s.line i).tag = tag := by
  obtain ⟨hi, hp, -⟩ := List.findIdx?_eq_some_iff_getElem.mp h
  simp only [Bool.and_eq_true, beq_iff_eq] at hp
  refine ⟨hi, ?_, ?_⟩ <;> simp [State.line, hi, hp]

/-- After a miss no valid line has the tag (R55). -/
theorem State.lookup_none {s : State} {tag : BitVec 13} (h : s.lookup tag = none) {i : Nat}
    (hi : i < s.lines.length) (hv : (s.line i).valid = true) : (s.line i).tag ≠ tag := by
  have := List.findIdx?_eq_none_iff.mp h (s.lines[i]) (List.getElem_mem hi)
  simp only [State.line, List.getD_eq_getElem?_getD, List.getElem?_eq_getElem hi, Option.getD_some] at hv ⊢
  intro ht
  simp [hv, ht] at this

/-- With unique tags, a valid line with the tag is the one the lookup finds (R31, R55). -/
theorem State.lookup_eq {s : State} (hu : s.TagsUnique) {i : Nat} (hi : i < s.lines.length)
    (hv : (s.line i).valid = true) : s.lookup (s.line i).tag = some i := by
  cases h : s.lookup (s.line i).tag with
  | none => exact absurd rfl (State.lookup_none h hi hv)
  | some j =>
    obtain ⟨hj, hjv, hjt⟩ := State.lookup_some h
    rw [hu j hj i hi hjv hv hjt]

/-- `View` of an address in a resident block (R73). -/
theorem State.view_resident {s : State} (hu : s.TagsUnique) {i : Nat} (hi : i < s.lines.length)
    (hv : (s.line i).valid = true) {a : Word} (ht : (s.line i).tag = tagOf a) :
    s.view a = (s.line i).block.get (offsetOf a) := by
  have h := State.lookup_eq hu hi hv
  rw [ht] at h
  simp [State.view, h]

/-- `View` of an address whose block is not resident (R73). -/
theorem State.view_absent {s : State} {a : Word} (h : ∀ i < s.lines.length, (s.line i).valid = true → (s.line i).tag ≠ tagOf a) :
    s.view a = s.arrayWord a.toNat := by
  cases hl : s.lookup (tagOf a) with
  | none => simp [State.view, hl]
  | some i =>
    obtain ⟨hi, hv, ht⟩ := State.lookup_some hl
    exact absurd ht (h i hi hv)

/-! ### The memory array -/

/-- The fault flags after an access: OOB is set unless the access was in bounds (R51, R52). -/
def oobUnless (ok : Bool) (f : FaultFlags) : FaultFlags := if ok then f else f.set .oob true

@[simp] theorem oobUnless_true (f : FaultFlags) : oobUnless true f = f := rfl
@[simp] theorem oobUnless_iop (ok : Bool) (f : FaultFlags) : (oobUnless ok f).iop = f.iop := by cases ok <;> rfl
@[simp] theorem oobUnless_itr (ok : Bool) (f : FaultFlags) : (oobUnless ok f).itr = f.itr := by cases ok <;> rfl
@[simp] theorem oobUnless_rsv (ok : Bool) (f : FaultFlags) : (oobUnless ok f).rsv = f.rsv := by cases ok <;> rfl
@[simp] theorem oobUnless_oob (ok : Bool) (f : FaultFlags) : (oobUnless ok f).oob = (f.oob || !ok) := by
  cases ok <;> simp [oobUnless, FaultFlags.set]

theorem oobUnless_oobUnless (ok ok' : Bool) (f : FaultFlags) :
    oobUnless ok' (oobUnless ok f) = oobUnless (ok && ok') f := by
  cases ok <;> cases ok' <;> rfl

/-- The state with another memory array and other fault flags. -/
def State.withArray (s : State) (m : Memory) (f : FaultFlags) : State := { s with mem := m, mfr := f }

theorem State.withArray_self (s : State) : s.withArray s.mem s.mfr = s := rfl

/-- `Mem.read` changes nothing but the flag OOB, and that only out of bounds (R51). -/
theorem arrayRead_eq (a : Nat) (s : State) :
    arrayRead a s = (s.arrayWord a, s.withArray s.mem (oobUnless (decide (a < s.mem.size)) s.mfr)) := by
  by_cases h : a < s.mem.size <;> simp [arrayRead, State.arrayWord, h, oobUnless] <;> rfl

/-- `Mem.write` changes one word in bounds, and only the flag OOB out of bounds (R52). -/
theorem arrayWrite_eq (a : Nat) (v : Word) (s : State) :
    arrayWrite a v s = s.withArray (if a < s.mem.size then s.mem.setWord a v else s.mem)
      (oobUnless (decide (a < s.mem.size)) s.mfr) := by
  by_cases h : a < s.mem.size <;> simp [arrayWrite, h, oobUnless] <;> rfl

/-- The writes of a write-back, over a list of offsets (R57, R60). -/
theorem writeBack_fold (l : Line) (os : List (Fin 8)) (s : State) (h : s.mem.wf = true) :
    ∃ m, os.foldl (fun s o => arrayWrite (blockAddr l.tag o) (l.block.get o) s) s
        = s.withArray m (oobUnless (os.all fun o => decide (blockAddr l.tag o < s.mem.size)) s.mfr)
      ∧ m.size = s.mem.size ∧ m.wf = true
      ∧ (∀ o ∈ os, blockAddr l.tag o < s.mem.size → m.word (blockAddr l.tag o) = l.block.get o)
      ∧ (∀ a, (∀ o ∈ os, a ≠ blockAddr l.tag o) → m.word a = s.mem.word a) := by
  induction os generalizing s with
  | nil => exact ⟨s.mem, rfl, rfl, h, by simp, by simp⟩
  | cons o os ih =>
    rw [List.foldl_cons, arrayWrite_eq]
    generalize hm1 : (if blockAddr l.tag o < s.mem.size then s.mem.setWord (blockAddr l.tag o) (l.block.get o) else s.mem) = m1
    have hs1 : m1.size = s.mem.size := by subst hm1; split <;> rfl
    have hw1 : m1.wf = true := by
      subst hm1; split
      · rename_i ho; exact Memory.wf_setWord h ho _
      · exact h
    have hword : ∀ a, m1.word a = if a = blockAddr l.tag o ∧ blockAddr l.tag o < s.mem.size then l.block.get o else s.mem.word a := by
      intro a; subst hm1
      by_cases ho : blockAddr l.tag o < s.mem.size
      · simp [ho, Memory.word_setWord h ho]
      · simp [ho]
    obtain ⟨m, hm, hs, hwf, hin, hout⟩ :=
      ih (s.withArray m1 (oobUnless (decide (blockAddr l.tag o < s.mem.size)) s.mfr)) hw1
    have hss : m.size = s.mem.size := hs.trans hs1
    refine ⟨m, ?_, hss, hwf, ?_, ?_⟩
    · rw [hm]
      simp only [State.withArray, hs1, oobUnless_oobUnless, List.all_cons]
    · intro p hp hpl
      by_cases hpo : p ∈ os
      · exact hin p hpo (by simpa [State.withArray, hs1] using hpl)
      · have hpo' : p = o := by simpa [hpo] using hp
        subst hpo'
        rw [hout]
        · simp [State.withArray, hword, hpl]
        · intro q hq e'
          exact hpo ((blockAddr_inj e').2 ▸ hq)
    · intro a ha
      rw [hout a (fun p hp => ha p (List.mem_cons_of_mem _ hp))]
      simp [State.withArray, hword, ha o (by simp)]

/-- The reads of a fill, over a list of offsets (R57). -/
theorem fillBlock_fold (tag : BitVec 13) (os : List (Fin 8)) (b : Vector Word 8) (s : State) :
    (∀ o, (os.foldl (fun p o => ((p.1.set o.val (arrayRead (blockAddr tag o) p.2).1),
        (arrayRead (blockAddr tag o) p.2).2)) (b, s)).1.get o = if o ∈ os then s.arrayWord (blockAddr tag o) else b.get o)
      ∧ (os.foldl (fun p o => ((p.1.set o.val (arrayRead (blockAddr tag o) p.2).1),
        (arrayRead (blockAddr tag o) p.2).2)) (b, s)).2
          = s.withArray s.mem (oobUnless (os.all fun o => decide (blockAddr tag o < s.mem.size)) s.mfr) := by
  induction os generalizing b s with
  | nil => exact ⟨by simp, rfl⟩
  | cons o os ih =>
    rw [List.foldl_cons]
    obtain ⟨h1, h2⟩ := ih (b.set o.val (arrayRead (blockAddr tag o) s).1) (arrayRead (blockAddr tag o) s).2
    refine ⟨?_, ?_⟩
    · intro q
      rw [h1 q, Block.get_set]
      simp only [arrayRead_eq]
      by_cases hq : q ∈ os
      · simp [hq]; rfl
      · by_cases hqo : q = o
        · subst hqo; simp [hq]
        · simp [hq, hqo]
    · rw [h2]
      simp only [arrayRead_eq, State.withArray, oobUnless_oobUnless, List.all_cons]

theorem offsets_all (s : State) (tag : BitVec 13) :
    (offsets.all fun o => decide (blockAddr tag o < s.mem.size)) = s.blockInBounds tag := by
  rw [Bool.eq_iff_iff, List.all_eq_true]
  simp only [decide_eq_true_eq, State.blockInBounds]
  exact offsets_inBounds tag s.mem.size

/-- Write-back of a line (R57, R60): the words of its block that exist are written, OOB is set if one does not,
and nothing else changes. -/
theorem writeBack_spec (l : Line) (s : State) (h : s.mem.wf = true) :
    ∃ m, writeBack l s = s.withArray m (oobUnless (s.blockInBounds l.tag) s.mfr)
      ∧ m.size = s.mem.size ∧ m.wf = true
      ∧ (∀ o, blockAddr l.tag o < s.mem.size → m.word (blockAddr l.tag o) = l.block.get o)
      ∧ (∀ a, (∀ o, a ≠ blockAddr l.tag o) → m.word a = s.mem.word a) := by
  obtain ⟨m, hm, hs, hwf, hin, hout⟩ := writeBack_fold l offsets s h
  rw [offsets_all] at hm
  exact ⟨m, hm, hs, hwf, fun o => hin o (mem_offsets o), fun a ha => hout a (fun o _ => ha o)⟩

/-- Filling a block from memory (R57): it takes what each address reads as, and OOB is set if one does not
exist. -/
theorem fillBlock_spec (tag : BitVec 13) (b : Vector Word 8) (s : State) :
    (∀ o, (fillBlock tag b s).1.get o = s.arrayWord (blockAddr tag o))
      ∧ (fillBlock tag b s).2 = s.withArray s.mem (oobUnless (s.blockInBounds tag) s.mfr) := by
  obtain ⟨h1, h2⟩ := fillBlock_fold tag offsets b s
  rw [offsets_all] at h2
  exact ⟨fun o => (h1 o).trans (if_pos (mem_offsets o)), h2⟩

end Sys2Proof.Machine
end

