-- ==== Sys2Proof/Laws/Access.lean ====
section
/-! SUPPORT. One access to memory through the cache, said once: `memRead` delivers `View`, `memWrite` changes `View`
at its address, both keep the invariant, every other word of memory, and every register. -/

namespace Sys2Proof.Machine

/-! ### The invariant and the cache's own fields -/

/-- The invariant speaks of memory, lines and LRU only. -/
theorem State.Inv.congr {s t : State} (h : s.Inv) (hm : t.mem = s.mem) (hl : t.lines = s.lines) (hr : t.lru = s.lru) :
    t.Inv := by
  have hline : t.line = s.line := by funext i; simp [State.line, hl]
  have harr : t.arrayWord = s.arrayWord := by funext a; simp [State.arrayWord, hm]
  refine ⟨hm ▸ h.memWf, hl ▸ h.hasLine, ?_, ?_, ?_, ?_⟩
  · rw [hl, hr]; exact h.lruPerm
  · rw [State.TagsUnique, hl, hline]; exact h.tagsUnique
  · rw [State.EmptyFirst, hr, hline]; exact h.emptyFirst
  · rw [State.CleanCoherent, hl, hline, harr]; exact h.cleanCoherent

theorem State.Inv.mem_lru {s : State} (h : s.Inv) {i : Nat} : i ∈ s.lru ↔ i < s.lines.length := by
  rw [h.lruPerm.mem_iff, List.mem_range]

theorem State.Inv.lru_nodup {s : State} (h : s.Inv) : s.lru.Nodup :=
  h.lruPerm.nodup_iff.mpr List.nodup_range

/-- LRU is its head, the victim of the next miss, and a rest without it (R57). -/
theorem State.Inv.lru_eq {s : State} (h : s.Inv) : ∃ rest, s.lru = s.victim :: rest ∧ s.victim ∉ rest := by
  have hn := h.lru_nodup
  cases hl : s.lru with
  | nil =>
    have := h.lruPerm.length_eq
    have h0 : s.lines.length ≠ 0 := fun e => h.hasLine (List.length_eq_zero_iff.mp e)
    simp [hl] at this
    omega
  | cons v rest =>
    rw [hl] at hn
    have hv : s.victim = v := by simp [State.victim, hl]
    exact ⟨rest, by rw [hv], by rw [hv]; exact (List.nodup_cons.mp hn).1⟩

theorem State.Inv.victim_lt {s : State} (h : s.Inv) : s.victim < s.lines.length := by
  obtain ⟨rest, he, -⟩ := h.lru_eq
  exact h.mem_lru.mp (he ▸ List.mem_cons_self)

theorem AccessFrame.refl (s : State) : AccessFrame s s := by constructor <;> first | rfl | exact id

theorem AccessFrame.trans {s t u : State} (h : AccessFrame s t) (k : AccessFrame t u) : AccessFrame s u := by
  constructor
  case oobSticky => exact fun e => k.oobSticky (h.oobSticky e)
  all_goals first
    | exact k.gpr.trans h.gpr | exact k.ixr.trans h.ixr | exact k.pc.trans h.pc | exact k.ir.trans h.ir
    | exact k.cc.trans h.cc | exact k.iop.trans h.iop | exact k.itr.trans h.itr | exact k.rsv.trans h.rsv
    | exact k.memWords.trans h.memWords | exact k.cacheLines.trans h.cacheLines | exact k.draws.trans h.draws
    | exact k.events.trans h.events | exact k.report.trans h.report

theorem SameWords.refl (s : State) : SameWords s s := fun _ _ => rfl

theorem AccessFrame.inBounds {s t : State} (h : AccessFrame s t) (a : Word) : t.inBounds a = s.inBounds a := by
  simp [State.inBounds, h.memWords]

theorem AccessFrame.blockInBounds {s t : State} (h : AccessFrame s t) (tag : BitVec 13) :
    t.blockInBounds tag = s.blockInBounds tag := by
  simp [State.blockInBounds, h.memWords]

theorem SameWords.trans {s t u : State} (h : SameWords s t) (hf : AccessFrame s t) (k : SameWords t u) :
    SameWords s u := fun a ha => (k a (by rw [hf.inBounds]; exact ha)).trans (h a ha)

theorem AccessFrame.x {s t : State} (h : AccessFrame s t) (r : Gpr) : t.x r = s.x r := by
  simp [State.x, h.gpr]

theorem AccessFrame.ixrAt {s t : State} (h : AccessFrame s t) (j : Ixr) : t.ixrAt j = s.ixrAt j := by
  simp [State.ixrAt, h.ixr]

/-! ### touch (R59) -/

theorem touch_inv {s : State} (h : s.Inv) {i : Nat} (hi : i < s.lines.length) (hv : (s.line i).valid = true) :
    (touch i s).Inv where
  memWf := h.memWf
  hasLine := h.hasLine
  lruPerm := by
    have : (s.lru.erase i ++ [i]).Perm s.lru :=
      List.perm_append_singleton i (s.lru.erase i) |>.trans (List.perm_cons_erase (h.mem_lru.mpr hi)).symm
    exact this.trans h.lruPerm
  tagsUnique := h.tagsUnique
  emptyFirst := by
    show (s.lru.erase i ++ [i]).Pairwise _
    rw [List.pairwise_append]
    refine ⟨h.emptyFirst.sublist List.erase_sublist, List.pairwise_singleton _ _, ?_⟩
    intro a _ b hb _
    obtain rfl := List.mem_singleton.mp hb
    exact hv
  cleanCoherent := h.cleanCoherent

theorem touch_frame (i : Nat) (s : State) : AccessFrame s (touch i s) := by
  constructor <;> first | rfl | exact id

/-! ### Eviction (R57, R60) -/

/-- Word `a` belongs to a victim that goes back to memory. -/
def State.writtenBack (s : State) (a : Nat) : Prop :=
  (s.line s.victim).valid = true ∧ (s.line s.victim).dirty = true ∧ ∃ o, a = blockAddr (s.line s.victim).tag o

/-- While every resident block exists, every eviction fits (R64). -/
theorem State.NoOobLine.evictionFits {s : State} (hn : s.NoOobLine) (h : s.Inv) : s.evictionFits = true := by
  by_cases hv : (s.line s.victim).valid = true
  · simp [State.evictionFits, hn s.victim h.victim_lt hv]
  · simp [State.evictionFits, hv]

/-- The write-back half of a miss: memory takes the words of a dirty victim, OOB is set if one of them does not
exist, nothing else changes. -/
theorem evict_spec {s : State} (h : s.Inv) :
    ∃ m, evict s = s.withArray m (oobUnless s.evictionFits s.mfr) ∧ m.size = s.mem.size ∧ m.wf = true
      ∧ ((s.line s.victim).valid = true → (s.line s.victim).dirty = true →
          ∀ o, blockAddr (s.line s.victim).tag o < s.mem.size →
            m.word (blockAddr (s.line s.victim).tag o) = (s.line s.victim).block.get o)
      ∧ (∀ a, ¬ s.writtenBack a → m.word a = s.mem.word a)
      ∧ (¬ ((s.line s.victim).valid = true ∧ (s.line s.victim).dirty = true) → m = s.mem) := by
  by_cases hd : (s.line s.victim).valid = true ∧ (s.line s.victim).dirty = true
  · obtain ⟨m, hm, hs, hwf, hin, hout⟩ := writeBack_spec (s.line s.victim) s h.memWf
    refine ⟨m, ?_, hs, hwf, fun _ _ => hin, ?_, fun hn => absurd hd hn⟩
    · rw [evict, if_pos (by simp [hd]), hm]
      simp [State.evictionFits, hd]
    · exact fun a ha => hout a (fun o e => ha ⟨hd.1, hd.2, o, e⟩)
  · have hf : s.evictionFits = true := by
      simp only [State.evictionFits, Bool.or_eq_true, Bool.not_eq_true', Bool.and_eq_false_imp]
      exact .inl fun hv => by simpa [hv] using hd
    refine ⟨s.mem, ?_, rfl, h.memWf, ?_, fun _ _ => rfl, fun _ => rfl⟩
    · rw [evict, if_neg (by simpa using hd), hf]
      rfl
    · exact fun h1 h2 => absurd ⟨h1, h2⟩ hd

/-! ### A miss (R57) -/

/-- What a miss leaves: the victim holds the block, valid and clean, and is the most recently used line; every
other line is as it was; memory took the victim's words if it was dirty. -/
structure MissSpec (tag : BitVec 13) (s t : State) : Prop where
  frame : AccessFrame s t
  inv : t.Inv
  words : SameWords s t
  same : ∀ a, tagOf a = tag → t.view a = s.view a
  valid : (t.line s.victim).valid = true
  tagEq : (t.line s.victim).tag = tag
  lineLt : s.victim < t.lines.length
  mfr : t.mfr = oobUnless (s.evictionFits && s.blockInBounds tag) s.mfr
  noOob : s.NoOobLine → s.blockInBounds tag = true → t.NoOobLine
  clean : (t.line s.victim).dirty = false
  others : ∀ i, i ≠ s.victim → t.line i = s.line i
  lru : t.lru = s.lru.tail ++ [s.victim]
  memIn : (s.line s.victim).valid = true → (s.line s.victim).dirty = true →
    ∀ o, blockAddr (s.line s.victim).tag o < s.mem.size →
      t.mem.word (blockAddr (s.line s.victim).tag o) = (s.line s.victim).block.get o
  memOut : ∀ k, (∀ o, k ≠ blockAddr (s.line s.victim).tag o) → t.mem.word k = s.mem.word k
  memSame : ¬ ((s.line s.victim).valid = true ∧ (s.line s.victim).dirty = true) → t.mem = s.mem

theorem miss_spec {s : State} (h : s.Inv) {tag : BitVec 13} (hmiss : s.lookup tag = none) :
    MissSpec tag s (miss tag s).2 := by
  obtain ⟨m, he, hs, hwf, hin, hout, hsame'⟩ := evict_spec h
  obtain ⟨hb, hf⟩ := fillBlock_spec tag ((evict s).line (evict s).victim).block (evict s)
  obtain ⟨rest, hlru, hrest⟩ := h.lru_eq
  have hvlt := h.victim_lt
  -- the state after the miss, as one record update
  generalize hblk : (fillBlock tag ((evict s).line (evict s).victim).block (evict s)).1 = blk at hb
  have hvic : (evict s).victim = s.victim := by rw [he]; rfl
  have ht : (miss tag s).2 =
      { s with
        mem := m
        mfr := oobUnless (s.evictionFits && s.blockInBounds tag) s.mfr
        lines := s.lines.set s.victim { valid := true, tag := tag, block := blk, dirty := false }
        lru := rest ++ [s.victim] } := by
    show fill tag (evict s) = _
    rw [fill, hblk, hf, hvic, he]
    simp only [touch, State.setLine, State.withArray, State.blockInBounds, hs, oobUnless_oobUnless, hlru,
      List.erase_cons_head]
  generalize (miss tag s).2 = t at ht
  have hblk' : ∀ o, blk.get o = if blockAddr tag o < s.mem.size then m.word (blockAddr tag o) else Config.oobSentinel := by
    intro o; rw [hb o, he]; simp [State.arrayWord, State.withArray, hs]
  have hline : ∀ j, t.line j = if j = s.victim then { valid := true, tag := tag, block := blk, dirty := false } else s.line j := by
    intro j
    have := s.setLine_line s.victim j { valid := true, tag := tag, block := blk, dirty := false }
    rw [show t.line j = (s.setLine s.victim { valid := true, tag := tag, block := blk, dirty := false }).line j by
      rw [ht]; rfl, this]
    simp [hvlt]
  have hlen : t.lines.length = s.lines.length := by rw [ht]; simp
  have hmem : t.mem = m := by rw [ht]
  have hsize : t.mem.size = s.mem.size := by rw [hmem, hs]
  have harr : ∀ a, ¬ s.writtenBack a → t.arrayWord a = s.arrayWord a := by
    intro a ha; simp [State.arrayWord, hmem, hs, hout a ha]
  -- a block that is not the victim's is not written back
  have hnotV : ∀ a : Nat, (∀ o, a ≠ blockAddr (s.line s.victim).tag o) → ¬ s.writtenBack a := by
    rintro a ha ⟨-, -, o, e⟩; exact ha o e
  have htagV : (s.line s.victim).valid = true → (s.line s.victim).tag ≠ tag := State.lookup_none hmiss hvlt
  have hnotTag : ∀ o, ¬ s.writtenBack (blockAddr tag o) := by
    rintro o ⟨hv, -, o', e⟩; exact htagV hv (blockAddr_inj e).1.symm
  have htu : t.TagsUnique := by
    intro i hi j hj hiv hjv hij
    rw [hlen] at hi hj
    simp only [hline] at hiv hjv hij
    by_cases hi' : i = s.victim <;> by_cases hj' : j = s.victim
    · rw [hi', hj']
    · simp only [if_pos hi', if_neg hj'] at hjv hij
      exact absurd hij.symm (State.lookup_none hmiss hj hjv)
    · simp only [if_neg hi', if_pos hj'] at hiv hij
      exact absurd hij (State.lookup_none hmiss hi hiv)
    · simp only [if_neg hi', if_neg hj'] at hiv hjv hij
      exact h.tagsUnique i hi j hj hiv hjv hij
  have hvalid : (t.line s.victim).valid = true := by rw [hline]; simp
  have htag : (t.line s.victim).tag = tag := by rw [hline]; simp
  have hframe : AccessFrame s t := by
    subst ht
    constructor <;> first | rfl | exact hs | (simp; done) | skip
    intro e; simp [e]
  have hinv : t.Inv := by
    refine ⟨hmem ▸ hwf, ?_, ?_, htu, ?_, ?_⟩
    · intro e
      have : s.lines.length = 0 := by rw [← hlen, e]; rfl
      exact h.hasLine (List.length_eq_zero_iff.mp this)
    · rw [hlen, show t.lru = rest ++ [s.victim] by rw [ht]]
      exact (List.perm_append_singleton _ _).trans (hlru ▸ h.lruPerm)
    · show t.lru.Pairwise _
      rw [show t.lru = rest ++ [s.victim] by rw [ht], List.pairwise_append]
      refine ⟨?_, List.pairwise_singleton _ _, ?_⟩
      · have hp := h.emptyFirst
        rw [State.EmptyFirst, hlru, List.pairwise_cons] at hp
        refine hp.2.imp_of_mem ?_
        intro a b ha hb' hab
        have hav : a ≠ s.victim := fun e => hrest (by rw [← e]; exact ha)
        have hbv : b ≠ s.victim := fun e => hrest (by rw [← e]; exact hb')
        rw [hline, hline, if_neg hav, if_neg hbv]
        exact hab
      · intro a _ b hb' _
        obtain rfl := List.mem_singleton.mp hb'
        exact hvalid
    · intro i hi hiv hid o
      rw [hlen] at hi
      by_cases hi' : i = s.victim
      · subst hi'
        rw [htag, hline, if_pos rfl]
        simp only [hblk', State.arrayWord, hmem, hs]
      · have hl : t.line i = s.line i := by rw [hline, if_neg hi']
        rw [hl] at hiv hid ⊢
        rw [h.cleanCoherent i hi hiv hid o, harr]
        rintro ⟨hv, -, o', e⟩
        exact hi' (h.tagsUnique i hi s.victim hvlt hiv hv (blockAddr_inj e).1)
  have hsame : ∀ a, tagOf a = tag → t.view a = s.view a := by
    intro a ha
    rw [State.view_resident htu (hlen.symm ▸ hvlt) hvalid (by rw [htag, ha]), hline, if_pos rfl]
    rw [State.view_absent (s := s) (fun i hi hv => ha ▸ State.lookup_none hmiss hi hv)]
    have hb := blockAddr_tagOf a
    rw [ha] at hb
    simp only [hblk', hb, State.arrayWord]
    rw [← hb, hout _ (hnotTag _)]
  refine ⟨hframe, hinv, ?_, hsame, hvalid, htag, hlen.symm ▸ hvlt, by rw [ht], ?_, by rw [hline]; simp,
    fun i hi => by rw [hline, if_neg hi], by rw [ht, hlru]; rfl, fun hv hd o ho => by rw [hmem]; exact hin hv hd o ho,
    fun k hk => by rw [hmem]; exact hout k (hnotV k hk), fun hn => hmem.trans (hsame' hn)⟩
  · intro a ha
    by_cases hat : tagOf a = tag
    · exact hsame a hat
    have haw := blockAddr_tagOf a
    have hlt : a.toNat < s.mem.size := by simpa [State.inBounds] using ha
    cases hl : s.lookup (tagOf a) with
    | some i =>
      obtain ⟨hi, hiv, hit⟩ := State.lookup_some hl
      rw [State.view_resident h.tagsUnique hi hiv hit]
      by_cases hiV : i = s.victim
      · -- the block was evicted: memory now holds what the line held
        subst hiV
        rw [State.view_absent (s := t)]
        · have e : a.toNat = blockAddr (s.line s.victim).tag (offsetOf a) := by rw [hit, haw]
          by_cases hd : (s.line s.victim).dirty = true
          · simp only [State.arrayWord, hmem, hs, if_pos hlt]
            rw [e, hin hiv hd _ (e ▸ hlt)]
          · rw [harr]
            · rw [e, h.cleanCoherent _ hi hiv (by simpa using hd)]
            · rintro ⟨-, hd', -⟩; exact hd hd'
        · intro j hj hjv hjt
          rw [hlen] at hj
          rw [hline] at hjv hjt
          by_cases hj' : j = s.victim
          · rw [if_pos hj'] at hjt; exact hat hjt.symm
          · rw [if_neg hj'] at hjv hjt
            exact hj' (h.tagsUnique j hj _ hi hjv hiv (hjt.trans hit.symm))
      · have hl' : t.line i = s.line i := by rw [hline, if_neg hiV]
        rw [State.view_resident htu (hlen.symm ▸ hi) (hl' ▸ hiv) (hl' ▸ hit), hl']
    | none =>
      rw [State.view_absent (s := s) (fun i hi hv => State.lookup_none hl hi hv), State.view_absent (s := t), harr]
      · rintro ⟨hv, -, o, e⟩
        rw [← haw] at e
        exact State.lookup_none hl hvlt hv (blockAddr_inj e).1.symm
      · intro j hj hjv hjt
        rw [hlen] at hj
        rw [hline] at hjv hjt
        by_cases hj' : j = s.victim
        · rw [if_pos hj'] at hjt; exact hat hjt.symm
        · rw [if_neg hj'] at hjv hjt
          exact State.lookup_none hl hj hjv hjt
  · intro hn hb' i hi hiv
    rw [hlen] at hi
    rw [hframe.blockInBounds]
    rw [hline] at hiv ⊢
    by_cases hi' : i = s.victim
    · rw [if_pos hi']; exact hb'
    · rw [if_neg hi'] at hiv ⊢; exact hn i hi hiv

/-! ### Storing into a resident line (R58) -/

/-- Storing into a valid line keeps the invariant and changes `View` at that one address. -/
theorem storeInLine_spec {s : State} (h : s.Inv) {i : Nat} (hi : i < s.lines.length) (hv : (s.line i).valid = true)
    {a : Word} (ht : (s.line i).tag = tagOf a) (v : Word) :
    (storeInLine i (offsetOf a) v s).Inv
      ∧ (∀ b, (storeInLine i (offsetOf a) v s).view b = if b = a then v else s.view b)
      ∧ ((storeInLine i (offsetOf a) v s).line i).valid = true
      ∧ (s.NoOobLine → (storeInLine i (offsetOf a) v s).NoOobLine) := by
  generalize ht' : storeInLine i (offsetOf a) v s = t
  have hline : ∀ j, t.line j = if j = i then { s.line i with block := (s.line i).block.set (offsetOf a).val v, dirty := true } else s.line j := by
    intro j
    rw [← ht', storeInLine, State.setLine_line]
    simp [hi]
  have hlen : t.lines.length = s.lines.length := by rw [← ht']; simp [storeInLine]
  have hmem : t.mem = s.mem := by rw [← ht']; rfl
  have hlru : t.lru = s.lru := by rw [← ht']; rfl
  have hvalid : ∀ j, (t.line j).valid = (s.line j).valid := by
    intro j; rw [hline]; split
    · rename_i hj; rw [hj]
    · rfl
  have htag : ∀ j, (t.line j).tag = (s.line j).tag := by
    intro j; rw [hline]; split
    · rename_i hj; rw [hj]
    · rfl
  have htu : t.TagsUnique := by
    intro j hj k hk
    rw [hlen] at hj hk
    simp only [hvalid, htag]
    exact h.tagsUnique j hj k hk
  have hinv : t.Inv := by
    refine ⟨hmem ▸ h.memWf, ?_, ?_, htu, ?_, ?_⟩
    · intro e
      have : s.lines.length = 0 := by rw [← hlen, e]; rfl
      exact h.hasLine (List.length_eq_zero_iff.mp this)
    · rw [hlru, hlen]; exact h.lruPerm
    · rw [State.EmptyFirst, hlru]; simp only [hvalid]; exact h.emptyFirst
    · intro j hj hjv hjd o
      rw [hlen] at hj
      rw [hline] at hjd
      by_cases hji : j = i
      · simp [hji] at hjd
      · rw [if_neg hji] at hjd
        rw [hvalid] at hjv
        rw [htag, hline, if_neg hji, h.cleanCoherent j hj hjv hjd o]
        simp [State.arrayWord, hmem]
  refine ⟨hinv, ?_, (hvalid i).trans hv, ?_⟩
  · intro b
    cases hl : s.lookup (tagOf b) with
    | some k =>
      obtain ⟨hk, hkv, hkt⟩ := State.lookup_some hl
      rw [State.view_resident h.tagsUnique hk hkv hkt,
        State.view_resident htu (hlen.symm ▸ hk) ((hvalid k).trans hkv) ((htag k).trans hkt), hline]
      by_cases hki : k = i
      · subst hki
        rw [if_pos rfl]
        simp only [Block.get_set]
        have htt : tagOf b = tagOf a := hkt.symm.trans ht
        by_cases hba : b = a
        · subst hba; simp
        · have : offsetOf b ≠ offsetOf a := fun e => hba (addr_ext htt e)
          simp [hba, this]
      · rw [if_neg hki, if_neg]
        rintro rfl
        exact hki (h.tagsUnique k hk i hi hkv hv (hkt.trans ht.symm))
    | none =>
      have hba : b ≠ a := by
        rintro rfl; exact State.lookup_none hl hi hv ht
      rw [if_neg hba, State.view_absent (s := s) (fun j hj hjv => State.lookup_none hl hj hjv),
        State.view_absent (s := t)]
      · simp [State.arrayWord, hmem]
      · intro j hj hjv
        rw [htag]; rw [hvalid] at hjv; rw [hlen] at hj
        exact State.lookup_none hl hj hjv
  · intro hn j hj hjv
    rw [hlen] at hj; rw [hvalid] at hjv
    rw [htag]
    simpa [State.blockInBounds, hmem] using hn j hj hjv

theorem storeInLine_frame (i : Nat) (o : Fin 8) (v : Word) (s : State) : AccessFrame s (storeInLine i o v s) := by
  constructor <;> first | rfl | exact id | simp [storeInLine]

/-! ### MemRead and MemWrite (R62 to R64) -/

/-- A read that hits (R56). -/
theorem memRead_hit {s : State} {a : Word} {i : Nat} (h : s.lookup (tagOf a) = some i) :
    memRead a s = ((s.line i).block.get (offsetOf a), touch i s) := by
  rw [memRead, cacheRead, h]

/-- A read that misses (R56, R57). -/
theorem memRead_miss {s : State} {a : Word} (h : s.lookup (tagOf a) = none) :
    memRead a s = (((miss (tagOf a) s).2.line s.victim).block.get (offsetOf a), (miss (tagOf a) s).2) := by
  rw [memRead, cacheRead, h]; rfl

/-- A write that hits (R58). -/
theorem memWrite_hit {s : State} {a v : Word} {i : Nat} (h : s.lookup (tagOf a) = some i) :
    memWrite a v s = touch i (storeInLine i (offsetOf a) v s) := by
  rw [memWrite, cacheWrite, h]

/-- A write that misses: the fill, then the store into the line it filled (R57, R58). -/
theorem memWrite_miss {s : State} {a v : Word} (h : s.lookup (tagOf a) = none) :
    memWrite a v s = touch s.victim (storeInLine s.victim (offsetOf a) v (miss (tagOf a) s).2) := by
  rw [memWrite, cacheWrite, h]; rfl

/-- The line a store writes, and every other line. -/
theorem storeInLine_line {s : State} {i : Nat} (hi : i < s.lines.length) (o : Fin 8) (v : Word) (j : Nat) :
    (storeInLine i o v s).line j
      = if j = i then { s.line i with block := (s.line i).block.set o.val v, dirty := true } else s.line j := by
  rw [storeInLine, State.setLine_line]
  simp [hi]

/-- What one read does (R56, R63, R64): the value is `View`, evaluated before; no word and no register changes; a hit
changes no fault flag, and a miss sets OOB exactly when its eviction or its own block leaves memory. -/
structure ReadSpec (a : Word) (s : State) (p : Word × State) : Prop where
  value : p.1 = s.view a
  frame : AccessFrame s p.2
  inv : p.2.Inv
  words : SameWords s p.2
  here : p.2.view a = s.view a
  hit : (s.lookup (tagOf a)).isSome = true → p.2.mfr = s.mfr
  miss : s.lookup (tagOf a) = none → p.2.mfr = oobUnless (s.evictionFits && s.blockInBounds (tagOf a)) s.mfr
  noOob : s.NoOobLine → s.blockInBounds (tagOf a) = true → p.2.NoOobLine

/-- A read that misses on a block that does not wholly exist sets OOB (R64). -/
theorem ReadSpec.oob {a : Word} {s : State} {p : Word × State} (r : ReadSpec a s p) (e : s.lookup (tagOf a) = none)
    (b : s.blockInBounds (tagOf a) = false) : p.2.mfr.oob = true := by
  simp [r.miss e, b]

theorem memRead_spec {s : State} (h : s.Inv) (a : Word) : ReadSpec a s (memRead a s) := by
  cases hl : s.lookup (tagOf a) with
  | some i =>
    obtain ⟨hi, hv, ht⟩ := State.lookup_some hl
    rw [memRead_hit hl]
    exact ⟨(State.view_resident h.tagsUnique hi hv ht).symm, touch_frame i s, touch_inv h hi hv, fun _ _ => rfl, rfl,
      fun _ => rfl, fun e => absurd (hl.symm.trans e) (by simp), fun hn _ => hn⟩
  | none =>
    have m := miss_spec h hl
    rw [memRead_miss hl]
    generalize (miss (tagOf a) s).2 = t at m
    refine ⟨?_, m.frame, m.inv, m.words, m.same a rfl, fun e => absurd e (by simp [hl]), fun _ => m.mfr, m.noOob⟩
    have := State.view_resident m.inv.tagsUnique m.lineLt m.valid (a := a) m.tagEq
    rw [← m.same a rfl, this]

/-- What one write does (R58, R63, R64): `View` takes the value at the address, even out of bounds, and every
other word that exists keeps its own; no register changes; the fault flags are those of a read. -/
structure WriteSpec (a v : Word) (s t : State) : Prop where
  here : t.view a = v
  frame : AccessFrame s t
  inv : t.Inv
  words : ∀ b, s.inBounds b = true → b ≠ a → t.view b = s.view b
  hit : (s.lookup (tagOf a)).isSome = true → t.mfr = s.mfr
  miss : s.lookup (tagOf a) = none → t.mfr = oobUnless (s.evictionFits && s.blockInBounds (tagOf a)) s.mfr
  noOob : s.NoOobLine → s.blockInBounds (tagOf a) = true → t.NoOobLine

/-- A write that misses on a block that does not wholly exist sets OOB (R64). -/
theorem WriteSpec.oob {a v : Word} {s t : State} (w : WriteSpec a v s t) (e : s.lookup (tagOf a) = none)
    (b : s.blockInBounds (tagOf a) = false) : t.mfr.oob = true := by
  simp [w.miss e, b]

theorem memWrite_spec {s : State} (h : s.Inv) (a v : Word) : WriteSpec a v s (memWrite a v s) := by
  cases hl : s.lookup (tagOf a) with
  | some i =>
    obtain ⟨hi, hv, ht⟩ := State.lookup_some hl
    rw [memWrite_hit hl]
    obtain ⟨h1, h2, h3, h4⟩ := storeInLine_spec h hi hv ht v
    have hf := storeInLine_frame i (offsetOf a) v s
    refine ⟨?_, hf.trans (touch_frame _ _), touch_inv h1 (by rw [hf.cacheLines]; exact hi) h3, ?_, fun _ => rfl,
      fun e => absurd (hl.symm.trans e) (by simp), fun hn _ => h4 hn⟩
    · exact (h2 a).trans (if_pos rfl)
    · exact fun b _ hb => (h2 b).trans (if_neg hb)
  | none =>
    have m := miss_spec h hl
    rw [memWrite_miss hl]
    generalize (miss (tagOf a) s).2 = t at m
    obtain ⟨h1, h2, h3, h4⟩ := storeInLine_spec m.inv m.lineLt m.valid m.tagEq v
    have hf := storeInLine_frame s.victim (offsetOf a) v t
    refine ⟨(h2 a).trans (if_pos rfl), (m.frame.trans hf).trans (touch_frame _ _),
      touch_inv h1 (by rw [hf.cacheLines]; exact m.lineLt) h3, ?_,
      fun e => absurd e (by simp [hl]), fun _ => m.mfr, fun hn hb => h4 (m.noOob hn hb)⟩
    exact fun b hb hba => ((h2 b).trans (if_neg hba)).trans (m.words b hb)

/-! ### The line an access works in (R56 to R59) -/

theorem State.lookup_of {s : State} (hu : s.TagsUnique) {i : Nat} {tag : BitVec 13} (hi : i < s.lines.length)
    (hv : (s.line i).valid = true) (ht : (s.line i).tag = tag) : s.lookup tag = some i := ht ▸ State.lookup_eq hu hi hv

theorem State.Inv.lru_erase_victim {s : State} (h : s.Inv) : s.lru.erase s.victim = s.lru.tail := by
  obtain ⟨rest, he, -⟩ := h.lru_eq
  simp [he]

/-- A read and a write of one address work in the same line, the hit or else the victim, and leave the same order,
memory array and fault flags; the write differs in that line's word and dirty bit. -/
structure AccessLine (a v : Word) (s r w : State) (i : Nat) : Prop where
  lt : i < s.lines.length
  which : s.lookup (tagOf a) = some i ∨ s.lookup (tagOf a) = none ∧ i = s.victim
  valid : (r.line i).valid = true
  tagEq : (r.line i).tag = tagOf a
  readLru : r.lru = s.lru.erase i ++ [i]
  writeLru : w.lru = s.lru.erase i ++ [i]
  written : w.line i = { valid := true, tag := tagOf a, block := (r.line i).block.set (offsetOf a).val v, dirty := true }
  others : ∀ j, j ≠ i → w.line j = r.line j
  mem : w.mem = r.mem
  mfr : w.mfr = r.mfr

theorem accessLine_spec {s : State} (h : s.Inv) (a v : Word) :
    ∃ i, AccessLine a v s (memRead a s).2 (memWrite a v s) i := by
  cases hl : s.lookup (tagOf a) with
  | some i =>
    obtain ⟨hi, hv, ht⟩ := State.lookup_some hl
    rw [memRead_hit hl, memWrite_hit hl]
    refine ⟨i, hi, .inl hl, hv, ht, rfl, rfl, ?_, ?_, rfl, rfl⟩
    · refine (storeInLine_line hi _ v i).trans ?_
      rw [if_pos rfl]; simp only [hv, ht]; rfl
    · exact fun j hj => (storeInLine_line hi _ v j).trans (if_neg hj)
  | none =>
    have m := miss_spec h hl
    rw [memRead_miss hl, memWrite_miss hl]
    generalize (miss (tagOf a) s).2 = t at m ⊢
    refine ⟨s.victim, m.frame.cacheLines ▸ m.lineLt, .inr ⟨hl, rfl⟩, m.valid, m.tagEq, ?_, ?_, ?_, ?_, rfl, rfl⟩
    · rw [m.lru, h.lru_erase_victim]
    · obtain ⟨rest, he, hn⟩ := h.lru_eq
      show t.lru.erase s.victim ++ [s.victim] = _
      rw [m.lru, he]
      simp [List.erase_append, hn]
    · refine (storeInLine_line m.lineLt _ v _).trans ?_
      rw [if_pos rfl]; simp only [m.valid, m.tagEq]
    · exact fun j hj => (storeInLine_line m.lineLt _ v j).trans (if_neg hj)

end Sys2Proof.Machine
end

