-- ==== Sys2Proof/Laws/Decode.lean ====
section
/-! SUPPORT. The fields of each canonical word are the fields it was built from (R91 to R100, R108). -/

namespace Sys2Proof

theorem Gpr.ofBits_toBits (r : Gpr) : Gpr.ofBits r.toBits = r := by cases r <;> rfl
theorem IndexSel.ofBits_toBits (x : IndexSel) : IndexSel.ofBits x.toBits = x := by cases x <;> rfl
theorem CcFlag.ofBits_toBits (c : CcFlag) : CcFlag.ofBits c.toBits = c := by cases c <;> rfl
theorem ShiftMode.ofBit_toBit (m : ShiftMode) : ShiftMode.ofBit m.toBit = m := by cases m <;> rfl
theorem ShiftDir.ofBit_toBit (d : ShiftDir) : ShiftDir.ofBit d.toBit = d := by cases d <;> rfl
theorem Gpr.toBits_ofBits (b : BitVec 2) : (Gpr.ofBits b).toBits = b := by revert b; decide
theorem IndexSel.toBits_ofBits (b : BitVec 2) : (IndexSel.ofBits b).toBits = b := by revert b; decide
theorem CcFlag.toBits_ofBits (b : BitVec 2) : (CcFlag.ofBits b).toBits = b := by revert b; decide

/-! ### The opcode map (R5, R101, R102) -/

theorem Mnemonic.mem_all (m : Mnemonic) : m ∈ Mnemonic.all := by cases m <;> decide

/-- What the map finds has the opcode it was asked for (R102). -/
theorem mnemonicIn_some {opc : OpcodeMap} {op : BitVec 6} {m : Mnemonic} (h : mnemonicIn opc op = some m) : opc m = op := by
  simpa using List.find?_some h

/-- The map finds nothing exactly for an opcode no mnemonic has (R103). -/
theorem mnemonicIn_none {opc : OpcodeMap} {op : BitVec 6} : mnemonicIn opc op = none ↔ ∀ m, opc m ≠ op := by
  simp only [mnemonicIn, List.find?_eq_none, decide_eq_true_eq]
  exact ⟨fun h m => h m m.mem_all, fun h m _ => h m⟩

/-- A legal map finds each mnemonic back (R5, R102). -/
theorem mnemonicIn_opc {opc : OpcodeMap} (h : opc.Legal) (m : Mnemonic) : mnemonicIn opc (opc m) = some m := by
  cases e : mnemonicIn opc (opc m) with
  | none => exact absurd rfl (mnemonicIn_none.mp e m)
  | some m' => rw [h.1 m' m (mnemonicIn_some e)]

/-- A map that finds each mnemonic back and gives HLT 0 is legal (R5). -/
theorem OpcodeMap.legal_of_found {opc : OpcodeMap} (h : ∀ m, mnemonicIn opc (opc m) = some m) (h0 : opc .HLT = 0) :
    opc.Legal :=
  ⟨fun m m' e => Option.some.inj ((h m).symm.trans (e ▸ h m')), h0⟩

/-- A word with the opcode a legal map gives a mnemonic is that instruction (R102). -/
theorem decodeWith_of_opcode {opc : OpcodeMap} (h : opc.Legal) {w : Word} {m : Mnemonic} (e : opcodeField w = opc m) :
    decodeWith opc w = .ok (operandsOf m w) := by
  rw [decodeWith, e, mnemonicIn_opc h]

/-- What the decoder answers: the operands of a mnemonic that has the word's opcode, or the rejection of an opcode
no mnemonic has (R102, R103). -/
theorem decodeWith_cases (opc : OpcodeMap) (w : Word) :
    (∃ m, opc m = opcodeField w ∧ decodeWith opc w = .ok (operandsOf m w))
      ∨ ((∀ m, opc m ≠ opcodeField w) ∧ decodeWith opc w = .error (.illegalOpcode (opcodeField w))) := by
  rw [decodeWith]
  cases e : mnemonicIn opc (opcodeField w) with
  | none => exact .inr ⟨mnemonicIn_none.mp e, rfl⟩
  | some m => exact .inl ⟨m, mnemonicIn_some e, rfl⟩

@[simp] theorem operandsOf_mnemonic (m : Mnemonic) (w : Word) : (operandsOf m w).mnemonic = m := by cases m <;> rfl

/-! ### The fields of the canonical words -/

theorem opcodeField_zero : opcodeField 0 = 0 := rfl

section Fields
variable (op : BitVec 6) (r y : BitVec 2) (x : IndexSel) (a : Nat) (i j : Bool)

/-- A field of a word is read bit by bit. -/
theorem extract_ext {n : Nat} {w : Word} {lo : Nat} {v : BitVec n} (h : ∀ k < n, w.getLsbD (lo + k) = v.getLsbD k) :
    w.extractLsb' lo n = v := by
  apply BitVec.eq_of_getLsbD_eq
  intro k hk
  rw [BitVec.getLsbD_extractLsb', decide_eq_true hk, Bool.true_and]
  exact h k hk

theorem opcodeField_encMR : opcodeField (encMR op r x a i) = op := by
  apply extract_ext
  intro k hk
  interval_cases k <;> simp only [encMR, BitVec.getLsbD_append] <;> rfl

theorem regField_encMR : regField (encMR op r x a i) = r := by
  apply extract_ext
  intro k hk
  interval_cases k <;> simp only [encMR, BitVec.getLsbD_append] <;> rfl

theorem ixField_encMR : ixField (encMR op r x a i) = x.toBits := by
  apply extract_ext
  intro k hk
  interval_cases k <;> simp only [encMR, BitVec.getLsbD_append] <;> rfl

theorem indirectField_encMR : indirectField (encMR op r x a i) = i := by
  cases i <;> simp only [indirectField, encMR, BitVec.getLsbD_append] <;> rfl

theorem addressField_encMR (h : fitsUnsigned a 5 = true) : addressField (encMR op r x a i) = a := by
  have e : (encMR op r x a i).extractLsb' 0 5 = BitVec.ofNat 5 a := by
    apply extract_ext
    intro k hk
    interval_cases k <;> simp only [encMR, BitVec.getLsbD_append] <;> rfl
  rw [addressField, e, BitVec.toNat_ofNat, Nat.mod_eq_of_lt (by simpa [fitsUnsigned] using h)]

theorem opcodeField_encIM : opcodeField (encIM op r a) = op := by
  apply extract_ext
  intro k hk
  interval_cases k <;> simp only [encIM, BitVec.getLsbD_append] <;> rfl

theorem regField_encIM : regField (encIM op r a) = r := by
  apply extract_ext
  intro k hk
  interval_cases k <;> simp only [encIM, BitVec.getLsbD_append] <;> rfl

theorem addressField_encIM (h : fitsUnsigned a 5 = true) : addressField (encIM op r a) = a := by
  have e : (encIM op r a).extractLsb' 0 5 = BitVec.ofNat 5 a := by
    apply extract_ext
    intro k hk
    interval_cases k <;> simp only [encIM, BitVec.getLsbD_append] <;> rfl
  rw [addressField, e, BitVec.toNat_ofNat, Nat.mod_eq_of_lt (by simpa [fitsUnsigned] using h)]

theorem opcodeField_encRFS : opcodeField (encRFS op a) = op := by
  apply extract_ext
  intro k hk
  interval_cases k <;> simp only [encRFS, BitVec.getLsbD_append] <;> rfl

theorem addressField_encRFS (h : fitsUnsigned a 5 = true) : addressField (encRFS op a) = a := by
  have e : (encRFS op a).extractLsb' 0 5 = BitVec.ofNat 5 a := by
    apply extract_ext
    intro k hk
    interval_cases k <;> simp only [encRFS, BitVec.getLsbD_append] <;> rfl
  rw [addressField, e, BitVec.toNat_ofNat, Nat.mod_eq_of_lt (by simpa [fitsUnsigned] using h)]

theorem opcodeField_encRR : opcodeField (encRR op r y) = op := by
  apply extract_ext
  intro k hk
  interval_cases k <;> simp only [encRR, BitVec.getLsbD_append] <;> rfl

theorem regField_encRR : regField (encRR op r y) = r := by
  apply extract_ext
  intro k hk
  interval_cases k <;> simp only [encRR, BitVec.getLsbD_append] <;> rfl

theorem ixField_encRR : ixField (encRR op r y) = y := by
  apply extract_ext
  intro k hk
  interval_cases k <;> simp only [encRR, BitVec.getLsbD_append] <;> rfl

theorem opcodeField_encSH : opcodeField (encSH op r a i j) = op := by
  apply extract_ext
  intro k hk
  interval_cases k <;> simp only [encSH, BitVec.getLsbD_append] <;> rfl

theorem regField_encSH : regField (encSH op r a i j) = r := by
  apply extract_ext
  intro k hk
  interval_cases k <;> simp only [encSH, BitVec.getLsbD_append] <;> rfl

theorem alField_encSH : alField (encSH op r a i j) = j := by
  cases j <;> simp only [alField, encSH, BitVec.getLsbD_append] <;> rfl

theorem lrField_encSH : lrField (encSH op r a i j) = i := by
  cases i <;> simp only [lrField, encSH, BitVec.getLsbD_append] <;> rfl

theorem countField_encSH (h : fitsUnsigned a 4 = true) : countField (encSH op r a i j) = a := by
  have e : (encSH op r a i j).extractLsb' 0 4 = BitVec.ofNat 4 a := by
    apply extract_ext
    intro k hk
    interval_cases k <;> simp only [encSH, BitVec.getLsbD_append] <;> rfl
  rw [countField, e, BitVec.toNat_ofNat, Nat.mod_eq_of_lt (by simpa [fitsUnsigned] using h)]

theorem opcodeField_encTRAP : opcodeField (encTRAP op a) = op := by
  apply extract_ext
  intro k hk
  interval_cases k <;> simp only [encTRAP, BitVec.getLsbD_append] <;> rfl

theorem countField_encTRAP (h : fitsUnsigned a 4 = true) : countField (encTRAP op a) = a := by
  have e : (encTRAP op a).extractLsb' 0 4 = BitVec.ofNat 4 a := by
    apply extract_ext
    intro k hk
    interval_cases k <;> simp only [encTRAP, BitVec.getLsbD_append] <;> rfl
  rw [countField, e, BitVec.toNat_ofNat, Nat.mod_eq_of_lt (by simpa [fitsUnsigned] using h)]

end Fields

end Sys2Proof
end

