-- ==== Sys2Proof/Laws/PerInstr.lean ====
section
/-! SUPPORT. Laws of every instruction as syntax, one lemma per constructor. -/

namespace Sys2Proof

/-- The top six bits of the canonical word are the opcode the map gives the instruction's mnemonic, for every map that
gives HLT 0 (R5, R91, R101, R108). -/
def Laws.OpcodeField.Statement (i : Instr) : Prop :=
  ∀ opc : OpcodeMap, opc .HLT = 0 → opcodeField (encodeWith opc i) = opc i.mnemonic

theorem Laws.OpcodeField.hlt : Laws.OpcodeField.Statement .hlt := fun _ h => opcodeField_zero.trans h.symm
theorem Laws.OpcodeField.ldr (r : Gpr) (x : IndexSel) (i : Bool) (a : Nat) : Laws.OpcodeField.Statement (.ldr r x i a) := fun _ _ => opcodeField_encMR _ _ _ _ _
theorem Laws.OpcodeField.str (r : Gpr) (x : IndexSel) (i : Bool) (a : Nat) : Laws.OpcodeField.Statement (.str r x i a) := fun _ _ => opcodeField_encMR _ _ _ _ _
theorem Laws.OpcodeField.lda (r : Gpr) (x : IndexSel) (i : Bool) (a : Nat) : Laws.OpcodeField.Statement (.lda r x i a) := fun _ _ => opcodeField_encMR _ _ _ _ _
theorem Laws.OpcodeField.amr (r : Gpr) (x : IndexSel) (i : Bool) (a : Nat) : Laws.OpcodeField.Statement (.amr r x i a) := fun _ _ => opcodeField_encMR _ _ _ _ _
theorem Laws.OpcodeField.smr (r : Gpr) (x : IndexSel) (i : Bool) (a : Nat) : Laws.OpcodeField.Statement (.smr r x i a) := fun _ _ => opcodeField_encMR _ _ _ _ _
theorem Laws.OpcodeField.air (r : Gpr) (n : Nat) : Laws.OpcodeField.Statement (.air r n) := fun _ _ => opcodeField_encIM _ _ _
theorem Laws.OpcodeField.sir (r : Gpr) (n : Nat) : Laws.OpcodeField.Statement (.sir r n) := fun _ _ => opcodeField_encIM _ _ _
theorem Laws.OpcodeField.jz (r : Gpr) (x : IndexSel) (i : Bool) (a : Nat) : Laws.OpcodeField.Statement (.jz r x i a) := fun _ _ => opcodeField_encMR _ _ _ _ _
theorem Laws.OpcodeField.jne (r : Gpr) (x : IndexSel) (i : Bool) (a : Nat) : Laws.OpcodeField.Statement (.jne r x i a) := fun _ _ => opcodeField_encMR _ _ _ _ _
theorem Laws.OpcodeField.jcc (c : CcFlag) (x : IndexSel) (i : Bool) (a : Nat) : Laws.OpcodeField.Statement (.jcc c x i a) := fun _ _ => opcodeField_encMR _ _ _ _ _
theorem Laws.OpcodeField.jma (x : IndexSel) (i : Bool) (a : Nat) : Laws.OpcodeField.Statement (.jma x i a) := fun _ _ => opcodeField_encMR _ _ _ _ _
theorem Laws.OpcodeField.jsr (x : IndexSel) (i : Bool) (a : Nat) : Laws.OpcodeField.Statement (.jsr x i a) := fun _ _ => opcodeField_encMR _ _ _ _ _
theorem Laws.OpcodeField.rfs (n : Nat) : Laws.OpcodeField.Statement (.rfs n) := fun _ _ => opcodeField_encRFS _ _
theorem Laws.OpcodeField.sob (r : Gpr) (x : IndexSel) (i : Bool) (a : Nat) : Laws.OpcodeField.Statement (.sob r x i a) := fun _ _ => opcodeField_encMR _ _ _ _ _
theorem Laws.OpcodeField.jge (r : Gpr) (x : IndexSel) (i : Bool) (a : Nat) : Laws.OpcodeField.Statement (.jge r x i a) := fun _ _ => opcodeField_encMR _ _ _ _ _
theorem Laws.OpcodeField.mlt (rx ry : Gpr) : Laws.OpcodeField.Statement (.mlt rx ry) := fun _ _ => opcodeField_encRR _ _ _
theorem Laws.OpcodeField.dvd (rx ry : Gpr) : Laws.OpcodeField.Statement (.dvd rx ry) := fun _ _ => opcodeField_encRR _ _ _
theorem Laws.OpcodeField.trr (rx ry : Gpr) : Laws.OpcodeField.Statement (.trr rx ry) := fun _ _ => opcodeField_encRR _ _ _
theorem Laws.OpcodeField.and (rx ry : Gpr) : Laws.OpcodeField.Statement (.and rx ry) := fun _ _ => opcodeField_encRR _ _ _
theorem Laws.OpcodeField.orr (rx ry : Gpr) : Laws.OpcodeField.Statement (.orr rx ry) := fun _ _ => opcodeField_encRR _ _ _
theorem Laws.OpcodeField.not (rx : Gpr) : Laws.OpcodeField.Statement (.not rx) := fun _ _ => opcodeField_encRR _ _ _
theorem Laws.OpcodeField.trap (code : Nat) : Laws.OpcodeField.Statement (.trap code) := fun _ _ => opcodeField_encTRAP _ _
theorem Laws.OpcodeField.src (r : Gpr) (mode : ShiftMode) (dir : ShiftDir) (n : Nat) : Laws.OpcodeField.Statement (.src r mode dir n) := fun _ _ => opcodeField_encSH _ _ _ _ _
theorem Laws.OpcodeField.rrc (r : Gpr) (mode : ShiftMode) (dir : ShiftDir) (n : Nat) : Laws.OpcodeField.Statement (.rrc r mode dir n) := fun _ _ => opcodeField_encSH _ _ _ _ _
theorem Laws.OpcodeField.ldx (x : IndexSel) (i : Bool) (a : Nat) : Laws.OpcodeField.Statement (.ldx x i a) := fun _ _ => opcodeField_encMR _ _ _ _ _
theorem Laws.OpcodeField.stx (x : IndexSel) (i : Bool) (a : Nat) : Laws.OpcodeField.Statement (.stx x i a) := fun _ _ => opcodeField_encMR _ _ _ _ _
theorem Laws.OpcodeField.inp (r : Gpr) (dev : Nat) : Laws.OpcodeField.Statement (.inp r dev) := fun _ _ => opcodeField_encIM _ _ _
theorem Laws.OpcodeField.out (r : Gpr) (dev : Nat) : Laws.OpcodeField.Statement (.out r dev) := fun _ _ => opcodeField_encIM _ _ _
theorem Laws.OpcodeField.chk (r : Gpr) (dev : Nat) : Laws.OpcodeField.Statement (.chk r dev) := fun _ _ => opcodeField_encIM _ _ _

end Sys2Proof
end

