-- ==== Sys2Proof/Laws/Step.lean ====
section
/-! SUPPORT. The resolver, the TRAP entry, the fetch and the step, each said once over the access lemmas. -/

namespace Sys2Proof.Machine

/-- What the resolver does (R134, R135): its address is the pure `effAddr`; its pointer read moves the cache only. -/
structure ResolveSpec (x : IndexSel) (i : Bool) (address : Nat) (s : State) (p : Word × State) : Prop where
  ea : p.1 = effAddr x i address s
  frame : AccessFrame s p.2
  inv : p.2.Inv
  words : SameWords s p.2
  direct : i = false → p.2 = s

theorem resolve_spec {s : State} (h : s.Inv) (x : IndexSel) (i : Bool) (address : Nat) :
    ResolveSpec x i address s (resolve x i address s) := by
  cases i with
  | false => exact ⟨rfl, AccessFrame.refl s, h, SameWords.refl s, fun _ => rfl⟩
  | true =>
    have r := memRead_spec h (indexedAddr x address s)
    exact ⟨r.value, r.frame, r.inv, r.words, fun e => by simp at e⟩

/-- The fetch (R130 to R132): `ir` takes the word at `pc`, `pc` moves on, the rest is one read. -/
theorem fetch_spec {s : State} (h : s.Inv) :
    ∃ u, ReadSpec (zextPc s.pc) s (s.view (zextPc s.pc), u)
      ∧ fetch s = { u with ir := s.view (zextPc s.pc), pc := s.pc + 1, report := .continues } := by
  have r := memRead_spec h (zextPc s.pc)
  refine ⟨(memRead (zextPc s.pc) s).2, ?_, ?_⟩
  · rw [← r.value]; exact r
  · rw [fetch, r.value]

theorem fetch_inv {s : State} (h : s.Inv) : (fetch s).Inv :=
  (memRead_spec h (zextPc s.pc)).inv.congr rfl rfl rfl

/-! ### The fetch and the two outcomes of decoding -/

/-- `SameWords` looks at the memory array and the cache lines only. -/
theorem SameWords.congr {s u t : State} (h : SameWords s u) (hm : t.mem = u.mem) (hl : t.lines = u.lines) :
    SameWords s t := by
  have hline : t.line = u.line := by funext i; simp [State.line, hl]
  have harr : t.arrayWord = u.arrayWord := by funext a; simp [State.arrayWord, hm]
  have hv : t.view = u.view := by funext a; simp only [State.view, State.lookup, hl, hline, harr]
  intro a ha
  rw [hv]
  exact h a ha

/-- What the fetch leaves (R130 to R132), field by field. -/
structure FetchSpec (s t : State) : Prop where
  inv : t.Inv
  words : SameWords s t
  pc : t.pc = s.pc + 1
  ir : t.ir = s.view (zextPc s.pc)
  report : t.report = .continues
  gpr : t.gpr = s.gpr
  ixr : t.ixr = s.ixr
  cc : t.cc = s.cc
  iop : t.mfr.iop = s.mfr.iop
  itr : t.mfr.itr = s.mfr.itr
  rsv : t.mfr.rsv = s.mfr.rsv
  oobSticky : s.mfr.oob = true → t.mfr.oob = true
  memWords : t.mem.size = s.mem.size
  cacheLines : t.lines.length = s.lines.length
  draws : t.draws = s.draws
  events : t.events = s.events

theorem fetch_fields {s : State} (h : s.Inv) : FetchSpec s (fetch s) := by
  obtain ⟨u, r, e⟩ := fetch_spec h
  rw [e]
  have f := r.frame
  exact ⟨r.inv.congr rfl rfl rfl, r.words.congr rfl rfl, rfl, rfl, rfl, f.gpr, f.ixr, f.cc, f.iop, f.itr, f.rsv,
    f.oobSticky, f.memWords, f.cacheLines, f.draws, f.events⟩

/-- A step runs the instruction its word decodes to, or sets IOP when it decodes to none (R130, R133, R216). -/
theorem stepWith_cases (opc : OpcodeMap) {s : State} (h : s.Inv) :
    (∃ i, decodeWith opc (s.view (zextPc s.pc)) = .ok i ∧ stepWith opc s = exec i (fetch s))
      ∨ ((∃ e, decodeWith opc (s.view (zextPc s.pc)) = .error e) ∧ stepWith opc s = .next ((fetch s).raiseMfr .iop)) := by
  rw [stepWith, (fetch_fields h).ir]
  cases decodeWith opc (s.view (zextPc s.pc)) with
  | ok i => exact .inl ⟨i, rfl, rfl⟩
  | error e => exact .inr ⟨⟨e, rfl⟩, rfl⟩

/-- A jump, taken or not, as one record update (R168). -/
theorem jumpIf_eq (c : Bool) (ea : Word) (s : State) :
    jumpIf c ea s = { s with pc := if c then ea.setWidth 12 else s.pc } := by
  cases c <;> rfl

/-! ### Nothing reads the report (assumption log 12) -/

/-- The state with another report. -/
def State.withReport (s : State) (p : StepReport) : State := { s with report := p }

theorem arrayWrite_report (a : Nat) (v : Word) (s : State) (p : StepReport) :
    arrayWrite a v (s.withReport p) = (arrayWrite a v s).withReport p := by
  by_cases h : a < s.mem.size <;> simp [arrayWrite, State.withReport, State.raiseMfr, h]

theorem arrayRead_report (a : Nat) (s : State) (p : StepReport) :
    arrayRead a (s.withReport p) = ((arrayRead a s).1, (arrayRead a s).2.withReport p) := by
  by_cases h : a < s.mem.size <;> simp [arrayRead, State.withReport, State.raiseMfr, h]

theorem writeBack_report (l : Line) (s : State) (p : StepReport) :
    writeBack l (s.withReport p) = (writeBack l s).withReport p := by
  simp only [writeBack, offsets, List.foldl_cons, List.foldl_nil, arrayWrite_report]

theorem fillBlock_report (tag : BitVec 13) (b : Vector Word 8) (s : State) (p : StepReport) :
    fillBlock tag b (s.withReport p) = ((fillBlock tag b s).1, (fillBlock tag b s).2.withReport p) := by
  simp only [fillBlock, offsets, List.foldl_cons, List.foldl_nil, arrayRead_report]

theorem evict_report (s : State) (p : StepReport) : evict (s.withReport p) = (evict s).withReport p := by
  unfold evict
  rw [show (s.withReport p).victim = s.victim from rfl, show (s.withReport p).line s.victim = s.line s.victim from rfl]
  split
  · exact writeBack_report _ _ _
  · rfl

theorem miss_report (tag : BitVec 13) (s : State) (p : StepReport) :
    miss tag (s.withReport p) = ((miss tag s).1, (miss tag s).2.withReport p) := by
  simp only [miss, evict_report, fill]
  rw [show (s.withReport p).victim = s.victim from rfl,
    show ((evict s).withReport p).victim = (evict s).victim from rfl,
    show ((evict s).withReport p).line (evict s).victim = (evict s).line (evict s).victim from rfl, fillBlock_report]
  simp only [touch, State.setLine, State.withReport]

theorem memRead_report (a : Word) (s : State) (p : StepReport) :
    memRead a (s.withReport p) = ((memRead a s).1, (memRead a s).2.withReport p) := by
  cases h : s.lookup (tagOf a) with
  | some i => rw [memRead_hit h, memRead_hit (s := s.withReport p) h]; rfl
  | none =>
    rw [memRead_miss h, memRead_miss (s := s.withReport p) h, miss_report]
    generalize miss (tagOf a) s = q
    rfl

end Sys2Proof.Machine
end

