-- ==== Sys2Proof/Tests/Slice0.lean ====
section
/-! SUPPORT. Tests of the model by hand: every expected value is from the spec's worked examples and vectors
(spec/95_test_vectors.md, ids V, LS, T, A, S, M, CT) or from a rule named beside it. The witnesses at the end meet
the hypotheses of the statements, one theorem for each statement that has any. -/

namespace Sys2Proof.Tests

open Sys2Proof.Machine

/-! ## WellFormed: an ill-formed term for each check (R104, R106) -/

/-- C1: the 5-bit address field refuses 32 and 35, and takes 31. -/
theorem test_wf_address_mr : Instr.wellFormed (.ldr .r0 .noIndex false 35) = false
    ∧ Instr.wellFormed (.str .r0 .noIndex false 32) = false ∧ Instr.wellFormed (.lda .r0 .noIndex false 32) = false
    ∧ Instr.wellFormed (.amr .r0 .noIndex false 32) = false ∧ Instr.wellFormed (.smr .r0 .noIndex false 32) = false
    ∧ Instr.wellFormed (.jz .r0 .noIndex false 32) = false ∧ Instr.wellFormed (.jne .r0 .noIndex false 32) = false
    ∧ Instr.wellFormed (.jcc .ov .noIndex false 32) = false ∧ Instr.wellFormed (.sob .r0 .noIndex false 32) = false
    ∧ Instr.wellFormed (.jge .r0 .noIndex false 32) = false ∧ Instr.wellFormed (.ldr .r0 .noIndex false 31) = true := by
  decide

theorem test_wf_address_xr : Instr.wellFormed (.ldx .x1 false 32) = false ∧ Instr.wellFormed (.stx .x1 false 32) = false
    ∧ Instr.wellFormed (.jma .x1 false 32) = false ∧ Instr.wellFormed (.jsr .x1 false 32) = false
    ∧ Instr.wellFormed (.ldx .x1 false 31) = true := by decide

theorem test_wf_immediate : Instr.wellFormed (.air .r0 32) = false ∧ Instr.wellFormed (.sir .r0 32) = false
    ∧ Instr.wellFormed (.rfs 32) = false ∧ Instr.wellFormed (.rfs 31) = true := by decide

theorem test_wf_code_count : Instr.wellFormed (.trap 16) = false ∧ Instr.wellFormed (.trap 15) = true
    ∧ Instr.wellFormed (.src .r0 .logical .left 16) = false ∧ Instr.wellFormed (.rrc .r0 .logical .left 16) = false
    ∧ Instr.wellFormed (.src .r0 .logical .left 15) = true := by decide

theorem test_wf_device : Instr.wellFormed (.inp .r0 32) = false ∧ Instr.wellFormed (.out .r0 32) = false
    ∧ Instr.wellFormed (.chk .r0 32) = false ∧ Instr.wellFormed (.chk .r0 31) = true := by decide

/-! ## Decoding: every constructor from a word written out field by field (R91 to R101, V10, the vectors) -/

/-- LS1, LS8, LS10, LS18, LS16: opcodes 01, 02, 03, 41, 42 octal. -/
theorem test_decode_load_store :
    decode 0b0000010000011101 = .ok (.ldr .r0 .noIndex false 29)
    ∧ decode 0b0000101000010100 = .ok (.str .r2 .noIndex false 20)
    ∧ decode 0b0000110100011111 = .ok (.lda .r1 .noIndex false 31)
    ∧ decode 0b1000010011101001 = .ok (.ldx .x3 true 9)
    ∧ decode 0b1000100010001010 = .ok (.stx .x2 false 10) := by decide

/-- V10: all fields of LDR non-zero. -/
theorem test_decode_all_fields : decode 0b0000011110100101 = .ok (.ldr .r3 .x2 true 5) := by decide

/-- T1, T3, T8d, T11, T14, T15, T17, T5: opcodes 10 to 17 octal. -/
theorem test_decode_transfer :
    decode 0b0010000000010100 = .ok (.jz .r0 .noIndex false 20)
    ∧ decode 0b0010010100001100 = .ok (.jne .r1 .noIndex false 12)
    ∧ decode 0b0010101100010011 = .ok (.jcc .eq .noIndex false 19)
    ∧ decode 0b0010110000100010 = .ok (.jma .noIndex true 2)
    ∧ decode 0b0011000000110000 = .ok (.jsr .noIndex true 16)
    ∧ decode 0b0011010000000101 = .ok (.rfs 5)
    ∧ decode 0b0011100100001100 = .ok (.sob .r1 .noIndex false 12)
    ∧ decode 0b0011111000001001 = .ok (.jge .r2 .noIndex false 9) := by decide

/-- A1, A5, A10, A12, A18, A31, A32, A35, A36, A37: opcodes 04 to 07 and 20 to 25 octal. -/
theorem test_decode_arith_logic :
    decode 0b0001000000010101 = .ok (.amr .r0 .noIndex false 21)
    ∧ decode 0b0001010100001010 = .ok (.smr .r1 .noIndex false 10)
    ∧ decode 0b0001101000011111 = .ok (.air .r2 31)
    ∧ decode 0b0001111100000101 = .ok (.sir .r3 5)
    ∧ decode 0b0100001000000000 = .ok (.mlt .r2 .r0)
    ∧ decode 0b0100011100000000 = .ok (.dvd .r3 .r0)
    ∧ decode 0b0100100010000000 = .ok (.trr .r0 .r2)
    ∧ decode 0b0100110001000000 = .ok (.and .r0 .r1)
    ∧ decode 0b0101001101000000 = .ok (.orr .r3 .r1)
    ∧ decode 0b0101011000000000 = .ok (.not .r2) := by decide

/-- S3, S4, S12, S15: opcodes 31, 32 octal; A_L is bit 7 and L_R bit 6. -/
theorem test_decode_shift :
    decode 0b0110010011000100 = .ok (.src .r0 .logical .left 4)
    ∧ decode 0b0110010001000100 = .ok (.src .r0 .arithmetic .left 4)
    ∧ decode 0b0110100110000100 = .ok (.rrc .r1 .logical .right 4)
    ∧ decode 0b0110100111001111 = .ok (.rrc .r1 .logical .left 15) := by decide

/-- M4, M2, M3, M5, M10: opcodes 61, 62, 63, 00, 30 octal. -/
theorem test_decode_io_misc :
    decode 0b1100011100011111 = .ok (.inp .r3 31)
    ∧ decode 0b1100100000000001 = .ok (.out .r0 1)
    ∧ decode 0b1100110100000001 = .ok (.chk .r1 1)
    ∧ decode 0b0000000000000000 = .ok .hlt
    ∧ decode 0b0110000000001111 = .ok (.trap 15) := by decide

/-- S17, A38, M6: unused bits are ignored. -/
theorem test_decode_unused_bits : decode 0x64B4 = .ok (.src .r0 .logical .right 4) ∧ decode 0x56C0 = .ok (.not .r2)
    ∧ decode 0x03FF = .ok .hlt := by decide

/-- M11, M12, M13: opcodes 77, 26 and 33 octal are illegal, by name. -/
theorem test_decode_illegal : decode 0xFC00 = .error (.illegalOpcode 0o77) ∧ decode 0x5800 = .error (.illegalOpcode 0o26)
    ∧ decode 0x6FFF = .error (.illegalOpcode 0o33) := by decide

/-- The table's numbering of bits is the word's. -/
theorem test_decode_table_word : decodeTableWord 16 0x041D = some (.ldr .r0 .noIndex false 29)
    ∧ decodeTableWord 16 0xFC00 = none := by decide

/-- Encoding the tuples of the vectors gives their words (R108). -/
theorem test_encode : encode (.ldr .r3 .x2 true 5) = 0x07A5 ∧ encode (.ldx .x3 true 9) = 0x84E9
    ∧ encode (.rrc .r1 .logical .left 15) = 0x69CF ∧ encode (.inp .r3 31) = 0xC71F ∧ encode (.trap 15) = 0x600F
    ∧ encode (.dvd .r3 .r0) = 0x4700 ∧ encode .hlt = 0 ∧ encode (.rfs 5) = 0x3405
    ∧ encode (.jcc .eq .noIndex false 19) = 0x2B13 := by decide

/-- V8. -/
theorem test_octal : octalDigits 0x0506 = [0, 0, 2, 4, 0, 6] ∧ octalDigits 0xFFFF = [1, 7, 7, 7, 7, 7]
    ∧ octalDigits 0x8000 = [1, 0, 0, 0, 0, 0] ∧ octalDigits 0x1234 = [0, 1, 1, 0, 6, 4]
    ∧ ofOctalDigits [0, 0, 0, 0, 1, 0] = 8 := by decide

/-! ## One step (the conventions of spec/95_test_vectors.md: the word at address 6, pc 6) -/

/-- The start state of a vector: reset, the words loaded, pc at 6. -/
def start (w : Word) (words : List (Nat × Word)) : State :=
  { words.foldl (fun s p => arrayWrite p.1 p.2 s) (arrayWrite 6 w (State.resetOf 2048 16)) with pc := 6 }

/-- The same with general registers set. -/
def withGpr (s : State) (r0 r1 r2 r3 : Word) : State := { s with gpr := { r0 := r0, r1 := r1, r2 := r2, r3 := r3 } }

/-- The same with index registers set. -/
def withIxr (s : State) (i0 i1 i2 : Word) : State := { s with ixr := { i0 := i0, i1 := i1, i2 := i2 } }

/-- The same with condition codes set. -/
def withCc (s : State) (ov uf dz eq : Bool) : State := { s with cc := { ov := ov, uf := uf, dz := dz, eq := eq } }

/-- The state an outcome leaves, and `s` for a refusal (R138). -/
def leftBy (o : Host.Outcome State Fault Refusal) (s : State) : State :=
  match o with
  | .next t => t
  | .fault f => f.left
  | .refused _ => s

/-- The state a step leaves. -/
def after (s : State) : State := leftBy (step s) s

/-- The error a step ends in, if it does (R233). -/
def errorOf (o : Host.Outcome State Fault Refusal) : Option Fault :=
  match o with
  | .next _ => none
  | .fault f => some f
  | .refused _ => none

/-- LS1 and V5: the register, pc, ir, the two lines filled and the order they leave. -/
theorem test_ldr_direct : (after (start 0x041D [(29, 1000)])).gpr = { r0 := 1000, r1 := 0, r2 := 0, r3 := 0 }
    ∧ (after (start 0x041D [(29, 1000)])).pc = 7 ∧ (after (start 0x041D [(29, 1000)])).ir = 0x041D
    ∧ (after (start 0x041D [(29, 1000)])).lru = [2, 3, 4, 5, 6, 7, 8, 9, 10, 11, 12, 13, 14, 15, 0, 1]
    ∧ ((after (start 0x041D [(29, 1000)])).line 1).tag = 3 := by decide

/-- LS4: indexed by IXR[1], then indirect. -/
theorem test_ldr_indexed_indirect : (after (withIxr (start 0x07A5 [(55, 300), (300, 9)]) 0 50 0)).gpr.r3 = 9 := by decide

/-- LS5: the sum wraps. -/
theorem test_index_wraps : (after (withIxr (start 0x04CA [(9, 42)]) 0 0 0xFFFF)).gpr.r0 = 42 := by decide

/-- LS7: out of bounds, the sentinel and the flag. -/
theorem test_ldr_out_of_bounds : (after (withIxr (start 0x0440 []) 3000 0 0)).gpr.r0 = Config.oobSentinel
    ∧ (after (withIxr (start 0x0440 []) 3000 0 0)).mfr.oob = true := by
  constructor
  · rfl
  · decide

/-- LS8: write-allocate and write-back: memory itself is not written. -/
theorem test_str : (after (withGpr (start 0x0A14 []) 0 0 0xBEEF 0)).view 20 = 0xBEEF
    ∧ (after (withGpr (start 0x0A14 []) 0 0 0xBEEF 0)).mem.word 20 = 0
    ∧ ((after (withGpr (start 0x0A14 []) 0 0 0xBEEF 0)).line 1).dirty = true := by decide

/-- LS9: an indirect store. -/
theorem test_str_indirect : (after (withGpr (start 0x092C [(12, 500)]) 0 77 0 0)).view 500 = 77
    ∧ (after (withGpr (start 0x092C [(12, 500)]) 0 77 0 0)).view 12 = 500 := by decide

/-- LS11: all 16 bits of the address, and no access, so no flag. -/
theorem test_lda : (after (withIxr (start 0x0C40 []) 0xFFFF 0 0)).gpr.r0 = 0xFFFF
    ∧ (after (withIxr (start 0x0C40 []) 0xFFFF 0 0)).mfr.oob = false := by decide

/-- LS12. -/
theorem test_lda_indirect : (after (start 0x0C2A [(10, 1234)])).gpr.r0 = 1234 := by decide

/-- LS14: self-indexed. -/
theorem test_ldx : (after (withIxr (start 0x8447 [(7, 24), (11, 99)]) 4 0 0)).ixr = { i0 := 99, i1 := 0, i2 := 0 } := by decide

/-- LS15: selector 0 is the error InvalidRegister, with pc and ir as the fetch left them. -/
theorem test_ldx_selector_zero : (after (start 0x8407 [(7, 24)])).pc = 7 ∧ (after (start 0x8407 [(7, 24)])).ir = 0x8407
    ∧ (after (start 0x8407 [(7, 24)])).ixr = { i0 := 0, i1 := 0, i2 := 0 }
    ∧ errorOf (step (start 0x8407 [(7, 24)])) = some (.invalidRegister 0 (fetch (start 0x8407 [(7, 24)]))) := by decide

/-- LS16: self-indexed store. -/
theorem test_stx : (after (withIxr (start 0x888A []) 0 5 0)).view 15 = 5
    ∧ (after (withIxr (start 0x888A []) 0 5 0)).view 10 = 0 := by decide

/-- LS17. -/
theorem test_stx_selector_zero :
    errorOf (step (withIxr (start 0x880A []) 1 2 3))
      = some (.invalidRegister 0 (fetch (withIxr (start 0x880A []) 1 2 3))) := by decide

/-- T1, T2. -/
theorem test_jz : (after (start 0x2014 [])).pc = 20 ∧ (after (withGpr (start 0x2014 []) 1 0 0 0)).pc = 7 := by decide

/-- T21: the pointer read happens although the jump is not taken. -/
theorem test_jz_not_taken_reads : (after (withIxr (withGpr (start 0x2060 []) 1 0 0 0) 3000 0 0)).pc = 7
    ∧ (after (withIxr (withGpr (start 0x2060 []) 1 0 0 0) 3000 0 0)).mfr.oob = true := by decide

/-- T3, T4. -/
theorem test_jne : (after (withGpr (start 0x250C []) 0 0xFFFF 0 0)).pc = 12 ∧ (after (start 0x250C [])).pc = 7 := by decide

/-- T5, T6, T7. -/
theorem test_jge : (after (start 0x3E09 [])).pc = 9 ∧ (after (withGpr (start 0x3E09 []) 0 0 0x8000 0)).pc = 7
    ∧ (after (withGpr (start 0x3E09 []) 0 0 0x7FFF 0)).pc = 9 := by decide

/-- T8a to T8d: each selector tests its flag, and the flag stays. -/
theorem test_jcc : (after (withCc (start 0x2813 []) true false false false)).pc = 19
    ∧ (after (withCc (start 0x2813 []) true false false false)).cc.ov = true
    ∧ (after (withCc (start 0x2913 []) false true false false)).pc = 19
    ∧ (after (withCc (start 0x2A13 []) false false true false)).pc = 19
    ∧ (after (withCc (start 0x2B13 []) false false false true)).pc = 19 := by decide

/-- T9: only the selected flag. -/
theorem test_jcc_not_taken : (after (withCc (start 0x2B13 []) true true true false)).pc = 7 := by decide

/-- T11, T12: indirect through word 2; and the low 12 bits of 0x1005. -/
theorem test_jma : (after (start 0x2C22 [(2, 40)])).pc = 40 ∧ (after (withIxr (start 0x2C45 []) 0x1000 0 0)).pc = 5 := by decide

/-- T14: only GPR[3] is overwritten. -/
theorem test_jsr : (after (withGpr (start 0x3030 [(16, 100)]) 1 2 3 4)).gpr = { r0 := 1, r1 := 2, r2 := 3, r3 := 7 }
    ∧ (after (withGpr (start 0x3030 [(16, 100)]) 1 2 3 4)).pc = 100 := by decide

/-- T15, T16: pc takes 12 bits of GPR[3], which stays. -/
theorem test_rfs : (after (withGpr (start 0x3405 []) 9 0 0 13)).gpr = { r0 := 5, r1 := 0, r2 := 0, r3 := 13 }
    ∧ (after (withGpr (start 0x3405 []) 9 0 0 13)).pc = 13
    ∧ (after (withGpr (start 0x3400 []) 9 0 0 0xF123)).pc = 0x123 := by decide

/-- T17, T18: 2 becomes 1 and jumps, 1 becomes 0 and does not. -/
theorem test_sob : (after (withGpr (start 0x390C []) 0 2 0 0)).pc = 12 ∧ (after (withGpr (start 0x390C []) 0 1 0 0)).pc = 7
    ∧ (after (withGpr (start 0x390C []) 0 1 0 0)).gpr.r1 = 0 := by decide

/-- T19, T20: 0 becomes 0xFFFF and does not jump; 0x8000 wraps to 0x7FFF and jumps, with no flag. -/
theorem test_sob_wraps : (after (start 0x390C [])).gpr.r1 = 0xFFFF ∧ (after (start 0x390C [])).pc = 7
    ∧ (after (withGpr (start 0x390C []) 0 0x8000 0 0)).gpr.r1 = 0x7FFF
    ∧ (after (withGpr (start 0x390C []) 0 0x8000 0 0)).pc = 12
    ∧ (after (withGpr (start 0x390C []) 0 0x8000 0 0)).cc.uf = false := by decide

/-- T22: the increment wraps at 4095. -/
theorem test_pc_wraps : (after { arrayWrite 4095 0x1801 (State.resetOf 4096 16) with pc := 4095 }).pc = 0
    ∧ (after { arrayWrite 4095 0x1801 (State.resetOf 4096 16) with pc := 4095 }).gpr.r0 = 1 := by decide

/-- A2, A3: overflow and underflow, the result wrapped. -/
theorem test_amr : (after (withGpr (start 0x100A [(10, 1)]) 32767 0 0 0)).gpr.r0 = 0x8000
    ∧ (after (withGpr (start 0x100A [(10, 1)]) 32767 0 0 0)).cc = { ov := true, uf := false, dz := false, eq := false }
    ∧ (after (withGpr (start 0x100A [(10, 0xFFFF)]) 0x8000 0 0 0)).gpr.r0 = 0x7FFF
    ∧ (after (withGpr (start 0x100A [(10, 0xFFFF)]) 0x8000 0 0 0)).cc.uf = true := by decide

/-- A4: a clean add clears nothing. -/
theorem test_amr_sticky : (after (withCc (withGpr (start 0x100A [(10, 0xFFFF)]) 5 0 0 0) true false false false)).gpr.r0 = 4
    ∧ (after (withCc (withGpr (start 0x100A [(10, 0xFFFF)]) 5 0 0 0) true false false false)).cc.ov = true := by decide

/-- A5, A7. -/
theorem test_smr : (after (withGpr (start 0x150A [(10, 7)]) 0 5 0 0)).gpr.r1 = 0xFFFE
    ∧ (after (withGpr (start 0x150A [(10, 7)]) 0 5 0 0)).cc.uf = false
    ∧ (after (start 0x150A [(10, 0x8000)])).gpr.r1 = 0x8000 ∧ (after (start 0x150A [(10, 0x8000)])).cc.ov = true := by decide

/-- A6. -/
theorem test_smr_underflow : (after (withGpr (start 0x150A [(10, 1)]) 0 0x8000 0 0)).gpr.r1 = 0x7FFF
    ∧ (after (withGpr (start 0x150A [(10, 1)]) 0 0x8000 0 0)).cc.uf = true := by decide

/-- A10, A11: the largest immediate overflows; -1 + 1 sets nothing. -/
theorem test_air : (after (withGpr (start 0x1A1F []) 0 0 32767 0)).gpr.r2 = 0x801E
    ∧ (after (withGpr (start 0x1A1F []) 0 0 32767 0)).cc.ov = true
    ∧ (after (withGpr (start 0x1A01 []) 0 0 0xFFFF 0)).gpr.r2 = 0
    ∧ (after (withGpr (start 0x1A01 []) 0 0 0xFFFF 0)).cc = { ov := false, uf := false, dz := false, eq := false } := by decide

/-- A12, A13. -/
theorem test_sir : (after (withGpr (start 0x1F05 []) 0 0 0 3)).gpr.r3 = 0xFFFE
    ∧ (after (withGpr (start 0x1F05 []) 0 0 0 3)).cc.uf = false
    ∧ (after (withGpr (start 0x1F01 []) 0 0 0 0x8000)).gpr.r3 = 0x7FFF
    ∧ (after (withGpr (start 0x1F01 []) 0 0 0 0x8000)).cc.uf = true := by decide

/-- A14 (V3), A15: 300 by 300; and -1 by 1, where the literal rule sets OV. -/
theorem test_mlt : (after (withGpr (start 0x4080 []) 300 0 300 0)).gpr = { r0 := 1, r1 := 0x5F90, r2 := 300, r3 := 0 }
    ∧ (after (withGpr (start 0x4080 []) 300 0 300 0)).cc.ov = true
    ∧ (after (withGpr (start 0x4080 []) 0xFFFF 7 1 0)).gpr = { r0 := 0xFFFF, r1 := 0xFFFF, r2 := 1, r3 := 0 }
    ∧ (after (withGpr (start 0x4080 []) 0xFFFF 7 1 0)).cc.ov = true := by decide

/-- A16, A20: 40000 sets no OV; an odd rx is the error InvalidRegisterPair. -/
theorem test_mlt_edges : (after (withGpr (start 0x4080 []) 200 7 200 0)).gpr = { r0 := 0, r1 := 40000, r2 := 200, r3 := 0 }
    ∧ (after (withGpr (start 0x4080 []) 200 7 200 0)).cc.ov = false
    ∧ errorOf (step (withGpr (start 0x4180 []) 1 2 3 4))
        = some (.invalidRegisterPair .r1 .r2 (fetch (withGpr (start 0x4180 []) 1 2 3 4))) := by decide

/-- A25, A26, A28: truncation toward zero, the remainder's sign, and the wrapped quotient. -/
theorem test_dvd : (after (withGpr (start 0x4480 []) 0xFFF9 0 2 0)).gpr = { r0 := 0xFFFD, r1 := 0xFFFF, r2 := 2, r3 := 0 }
    ∧ (after (withGpr (start 0x4480 []) 7 0 0xFFFE 0)).gpr = { r0 := 0xFFFD, r1 := 1, r2 := 0xFFFE, r3 := 0 }
    ∧ (after (withGpr (start 0x4480 []) 0x8000 9 0xFFFF 0)).gpr = { r0 := 0x8000, r1 := 0, r2 := 0xFFFF, r3 := 0 }
    ∧ (after (withGpr (start 0x4480 []) 0x8000 9 0xFFFF 0)).cc.ov = false := by decide

/-- A24 (V2), A31: the zero divisor; and the pair check comes before the zero check. -/
theorem test_dvd_edges : (after (withGpr (start 0x4480 []) 7 9 0 0)).gpr = { r0 := 7, r1 := 9, r2 := 0, r3 := 0 }
    ∧ (after (withGpr (start 0x4480 []) 7 9 0 0)).cc = { ov := false, uf := false, dz := true, eq := false }
    ∧ errorOf (step (withGpr (start 0x4700 []) 0 2 3 4))
        = some (.invalidRegisterPair .r3 .r0 (fetch (withGpr (start 0x4700 []) 0 2 3 4))) := by decide

/-- A32, A33, A34: EQ is written both ways, and odd registers are legal. -/
theorem test_trr : (after (withGpr (start 0x4880 []) 240 0 240 0)).cc.eq = true
    ∧ (after (withCc (withGpr (start 0x4880 []) 240 0 241 0) false false false true)).cc.eq = false
    ∧ (after (withGpr (start 0x4940 []) 0 5 0 0)).cc.eq = true := by decide

/-- A35, A36, A37. -/
theorem test_logic : (after (withGpr (start 0x4C40 []) 0x0FF0 0x0F0F 0 0)).gpr.r0 = 0x0F00
    ∧ (after (withGpr (start 0x5340 []) 0 0x0F0F 0 0x00F0)).gpr.r3 = 0x0FFF
    ∧ (after (withGpr (start 0x5600 []) 0 0 0x00F0 0)).gpr.r2 = 0xFF0F := by decide

/-- S1, S2, S4, S6, S9. -/
theorem test_src : (after (withGpr (start 0x6484 []) 0x0F00 0 0 0)).gpr.r0 = 0x00F0
    ∧ (after (withGpr (start 0x6404 []) 0xFF00 0 0 0)).gpr.r0 = 0xFFF0
    ∧ (after (withGpr (start 0x6444 []) 0x0F0F 0 0 0)).gpr.r0 = 0xF0F0
    ∧ (after (withGpr (start 0x640F []) 0x8000 0 0 0)).gpr.r0 = 0xFFFF
    ∧ (after (withGpr (start 0x640F []) 0x7FFF 0 0 0)).gpr.r0 = 0 := by decide

/-- S11, S12, S14, S16. -/
theorem test_rrc : (after (withGpr (start 0x69C1 []) 0 0x8001 0 0)).gpr.r1 = 0x0003
    ∧ (after (withGpr (start 0x6984 []) 0 0x1234 0 0)).gpr.r1 = 0x4123
    ∧ (after (withGpr (start 0x69C0 []) 0 0x1234 0 0)).gpr.r1 = 0x1234
    ∧ (after (withGpr (start 0x6908 []) 0 0x12AB 0 0)).gpr.r1 = 0xAB12 := by decide

/-- M1, M3, M4: the oracle's word, whatever it is, and one draw each. -/
theorem test_in_chk : (after (start 0xC400 [])).gpr.r0 = Config.devIn 0 0 ∧ (after (start 0xC71F [])).gpr.r3 = Config.devIn 0 31
    ∧ (after (start 0xCD01 [])).gpr.r1 = Config.devStatus 0 1 ∧ (after (start 0xCD01 [])).draws = 1 := by
  refine ⟨rfl, rfl, rfl, by decide⟩

/-- M2: the event (1, 66). -/
theorem test_out : (after (withGpr (start 0xC801 []) 66 0 0 0)).events = [{ dev := 1, value := 66 }] := by decide

/-- M6: halt, with pc and ir of the fetch; and the next step goes on (R269). -/
theorem test_hlt : (after (start 0x03FF [])).report = .halts ∧ (after (start 0x03FF [])).pc = 7
    ∧ (after (start 0x03FF [])).ir = 0x03FF ∧ (after (after (start 0x03FF [(7, 0x1A01)]))).report = .continues
    ∧ (after (after (start 0x03FF [(7, 0x1A01)]))).gpr.r2 = 1 := by decide

/-- M8: through the table; word 2 is written in the cache only. -/
theorem test_trap : (after (start 0x6001 [(0, 24), (24, 27), (25, 28)])).pc = 28
    ∧ (after (start 0x6001 [(0, 24), (24, 27), (25, 28)])).view 2 = 7
    ∧ (after (start 0x6001 [(0, 24), (24, 27), (25, 28)])).mem.word 2 = 0 := by decide

/-- M9, M10: the entry is word 2 itself; and the entry's address wraps. -/
theorem test_trap_edges : (after (start 0x6002 [])).pc = 7 ∧ (after (start 0x600F [(0, 0xFFF8)])).pc = 0
    ∧ (after (start 0x600F [(0, 0xFFF8)])).view 2 = 7 := by decide

/-- M11, M13: IOP, and the step continues. -/
theorem test_illegal : (after (start 0xFC00 [])).mfr = { oob := false, iop := true, itr := false, rsv := false }
    ∧ (after (start 0xFC00 [])).pc = 7 ∧ (after (start 0xFC00 [])).report = .continues
    ∧ (after (start 0x6FFF [])).mfr.iop = true := by decide

/-! ## Cache traces (CT1 to CT5) -/

/-- A machine of two lines. -/
def two (words : List (Nat × Word)) : State := words.foldl (fun s p => arrayWrite p.1 p.2 s) (State.resetOf 2048 2)

/-- CT1 after its first four accesses. -/
def ct1 : State := memWrite 24 0xCCCC (memRead 8 (memWrite 16 0xBBBB (memWrite 8 0xAAAA (two [(9, 0x0909)])))).2

theorem test_ct1_first_half : ct1.mem.word 16 = 0xBBBB ∧ ct1.mem.word 8 = 0 ∧ ct1.lru = [0, 1]
    ∧ (ct1.line 0).tag = 1 ∧ (ct1.line 0).dirty = true ∧ (ct1.line 1).tag = 3 ∧ (ct1.line 1).dirty = true := by decide

/-- CT1, its last three accesses. -/
theorem test_ct1_second_half : (memRead 16 ct1).1 = 0xBBBB ∧ (memRead 9 (memRead 16 ct1).2).1 = 0x0909
    ∧ (memRead 24 (memRead 9 (memRead 16 ct1).2).2).1 = 0xCCCC
    ∧ (memRead 24 (memRead 9 (memRead 16 ct1).2).2).2.mem.word 8 = 0xAAAA
    ∧ (memRead 24 (memRead 9 (memRead 16 ct1).2).2).2.lru = [1, 0]
    ∧ (memRead 24 (memRead 9 (memRead 16 ct1).2).2).2.mfr.oob = false := by decide

/-- CT2: as many tags as lines, no eviction. -/
def ct2 : State := memWrite 16 5 (memWrite 15 4 (memWrite 17 3 (memWrite 9 2 (memWrite 8 1 (two [])))))

theorem test_ct2 : ct2.mem = (two []).mem ∧ ct2.lru = [0, 1] ∧ (memRead 8 ct2).1 = 1 ∧ (memRead 23 ct2).1 = 0
    ∧ ct2.view 9 = 2 ∧ ct2.view 15 = 4 ∧ ct2.view 16 = 5 ∧ ct2.view 17 = 3 := by decide

/-- CT3: out of bounds: a hit sets no flag and the value is lost when the line is evicted. -/
def ct3 : State := mfrSet .oob false (memRead 2050 (two [])).2

theorem test_ct3 : (memRead 2050 (two [])).1 = Config.oobSentinel ∧ (memRead 2050 (two [])).2.mfr.oob = true
    ∧ (memWrite 2050 5 ct3).mfr.oob = false ∧ (memRead 2050 (memWrite 2050 5 ct3)).1 = 5
    ∧ (memRead 8 (memRead 0 (memWrite 2050 5 ct3)).2).2.mfr.oob = true
    ∧ (memRead 2050 (memRead 8 (memRead 0 (memWrite 2050 5 ct3)).2).2).1 = Config.oobSentinel := by
  refine ⟨rfl, by decide, by decide, by decide, by decide, rfl⟩

/-- CT4: a block that straddles the end of memory. -/
theorem test_ct4 : (memRead 2040 (arrayWrite 2041 12 (arrayWrite 2040 11 (State.resetOf 2044 2)))).1 = 11
    ∧ (memRead 2040 (arrayWrite 2041 12 (arrayWrite 2040 11 (State.resetOf 2044 2)))).2.mfr.oob = true
    ∧ (memRead 2041 (memRead 2040 (arrayWrite 2041 12 (arrayWrite 2040 11 (State.resetOf 2044 2)))).2).1 = 12 := by decide

/-- CT5: one line. -/
theorem test_ct5 : (memRead 8 (memWrite 0 1 (State.resetOf 2048 1))).2.mem.word 0 = 1
    ∧ (memRead 0 (memRead 8 (memWrite 0 1 (State.resetOf 2048 1))).2).1 = 1 := by decide

/-! ## The host -/

/-- R262, R263, R266: a launch, and a refused load after a step. -/
theorem test_launch : (match launch 2048 16 [(6, 0x041D), (29, 1000)] 6 with | .next s => (after s).gpr.r0 | _ => 0) = 1000
    ∧ (match load [] (after (start 0 [])) with | .refused r => decide (r = .loadAfterExecution) | _ => false) = true
    ∧ (match load [(2048, 1)] (start 0 []) with | .next s => s.mfr.oob | _ => false) = true := by decide

/-- R27: bounds and masks. -/
theorem test_accessors : rfReadGpr 4 State.reset = .error (.invalidRegister 4 State.reset)
    ∧ rfReadIxr (-1) State.reset = .error (.invalidRegister (-1) State.reset)
    ∧ (rfWritePc (-1) State.reset).pc = 4095 ∧ (rfWritePc 4101 State.reset).pc = 5 := by decide

/-- R139: run to halt stops at the HLT. -/
theorem test_run_to_halt : (match runToHalt 2 (start 0x1A01 []) with | some (.next s) => s.pc | _ => 0) = 8
    ∧ runToHalt 1 (start 0x1A01 []) = none := by decide

/-- withFetchWord places the first instruction after reset, and in a resident block too. -/
theorem test_with_fetch_word : (after (State.reset.withFetchWord 16 0x1A05)).gpr.r2 = 5
    ∧ (after ((memRead 0 State.reset).2.withFetchWord 16 0x1A05)).gpr.r2 = 5 := by decide

/-! ## Witnesses: states and operands that meet the hypotheses of each statement, clause by clause -/

/-- The invariant of Safety, as one check. -/
def invCheck (s : State) : Bool :=
  s.mem.wf && decide (s.lines ≠ []) && decide (s.lru.Perm (List.range s.lines.length))
    && decide (∀ i < s.lines.length, ∀ j < s.lines.length, (s.line i).valid = true → (s.line j).valid = true →
        (s.line i).tag = (s.line j).tag → i = j)
    && decide (s.lru.Pairwise (fun i j => (s.line i).valid = true → (s.line j).valid = true))
    && decide (∀ i < s.lines.length, (s.line i).valid = true → (s.line i).dirty = false →
        ∀ o : Fin 8, (s.line i).block.get o = s.arrayWord (blockAddr (s.line i).tag o))

theorem inv_of_check {s : State} (h : invCheck s = true) : s.Inv := by
  simp only [invCheck, Bool.and_eq_true, decide_eq_true_eq] at h
  obtain ⟨⟨⟨⟨⟨h1, h2⟩, h3⟩, h4⟩, h5⟩, h6⟩ := h
  exact ⟨h1, h2, h3, h4, h5, h6⟩

/-- An outcome that is a next state. -/
def isNext (o : Host.Outcome State Fault Refusal) : Bool :=
  match o with
  | .next _ => true
  | .fault _ => false
  | .refused _ => false

theorem eq_next {o : Host.Outcome State Fault Refusal} (s : State) (h : isNext o = true) : o = .next (leftBy o s) := by
  cases o <;> first | rfl | simp [isNext] at h

/-- Both lines empty; IXR = 3, 4, 5 and GPR = 7, 0x8000, 2, 13. -/
def cold : State :=
  withIxr (withGpr { two [(0, 24), (10, 20), (20, 99), (24, 27), (25, 28)] with pc := 6 } 7 0x8000 2 13) 3 4 5

/-- One line filled, one empty. -/
def half : State := (memRead 8 cold).2

/-- Both lines filled and clean: the victim is line 0. -/
def clean : State := (memRead 16 half).2

/-- Both lines filled and dirty: the victim is line 1. -/
def warm : State := (memRead 8 (memWrite 16 0xBBBB (memWrite 8 0xAAAA cold))).2

/-- A machine whose last block straddles the end of memory: word 59 exists, word 60 does not. -/
def tight : State := { State.resetOf 60 2 with pc := 6 }

/-- The same with that block written, so valid and dirty in line 0, the victim; OOB cleared by the host since. -/
def spill : State := mfrSet .oob false (memRead 8 (memWrite 59 5 tight)).2

/-- `cold` with a word where the next fetch reads it. -/
def at6 (w : Word) : State := arrayWrite 6 w cold

theorem test_inv_cold : cold.Inv := inv_of_check (by decide)
theorem test_inv_half : half.Inv := inv_of_check (by decide)
theorem test_inv_clean : clean.Inv := inv_of_check (by decide)
theorem test_inv_warm : warm.Inv := inv_of_check (by decide)
theorem test_inv_tight : tight.Inv := inv_of_check (by decide)
theorem test_inv_spill : spill.Inv := inv_of_check (by decide)

/-! ### Encoding and the host -/

/-- Another map that R5 allows: the numbers of LDX and STX exchanged. -/
def swapped (m : Mnemonic) : BitVec 6 := if m = .LDX then 0o42 else if m = .STX then 0o41 else m.opc

theorem test_swapped_legal : OpcodeMap.Legal swapped :=
  OpcodeMap.legal_of_found (fun m => by cases m <;> decide) (by decide)

/-- The map is an argument: the word of LDX 3,9,1 is STX 3,9,1 there, and a step of it stores. -/
theorem test_other_map : decodeWith swapped 0b1000010011101001 = .ok (.stx .x3 true 9)
    ∧ encodeWith swapped (.ldx .x3 true 9) = 0b1000100011101001
    ∧ (leftBy (stepWith swapped (withIxr (start 0x848A []) 0 5 0)) cold).view 15 = 5 := by decide

/-- Operands at the top of their fields; and a word with and a word without unused bits. -/
theorem test_witness_decode_of_encode : OpcodeMap.Legal swapped ∧ Instr.wellFormed (.ldr .r3 .x3 true 31) = true
    ∧ Instr.wellFormed (.rrc .r3 .logical .left 15) = true
    ∧ decodeWith swapped 0x5600 = .ok (.not .r2) ∧ 0x5600#16 &&& (Instr.mnemonic (.not .r2)).unusedMask = 0
    ∧ decodeWith swapped 0x56C0 = .ok (.not .r2) ∧ 0x56C0#16 &&& (Instr.mnemonic (.not .r2)).unusedMask ≠ 0 :=
  ⟨test_swapped_legal, by decide⟩

theorem test_witness_decoded_well_formed : decodeWith Mnemonic.opc 0x07A5 = .ok (.ldr .r3 .x2 true 5)
    ∧ decodeWith swapped 0x07A5 = .ok (.ldr .r3 .x2 true 5) := by decide

/-- Both sides of every boundary of the opcodes the default map leaves out; and one the other map leaves out. -/
theorem test_witness_illegal_opcodes : [0o25, 0o26, 0o27, 0o30, 0o32, 0o33].map (mnemonicIn Mnemonic.opc)
      = [some .NOT, none, none, some .TRAP, some .RRC, none]
    ∧ [0o40, 0o41, 0o42, 0o43, 0o60].map (mnemonicIn Mnemonic.opc) = [none, some .LDX, some .STX, none, none]
    ∧ [0o61, 0o63, 0o64, 0o77].map (mnemonicIn Mnemonic.opc) = [some .IN, some .CHK, none, none]
    ∧ decodeWith swapped 0x5800 = .error (.illegalOpcode 0o26) := by decide

theorem test_witness_unused_bits : decodeWith swapped 0x6484 = .ok (.src .r0 .logical .right 4)
    ∧ 0x6484#16 &&& ~~~ (Instr.mnemonic (.src .r0 .logical .right 4)).unusedMask
      = 0x64B4#16 &&& ~~~ (Instr.mnemonic (.src .r0 .logical .right 4)).unusedMask := by decide

/-- R106 at the edge of a 5-bit field. -/
theorem test_witness_to_binary : toBinary 32 5 = .error .outOfRange ∧ toBinary 31 5 = .ok 31
    ∧ encodeChecked (.air .r0 32) = .error .outOfRange ∧ encodeChecked (.air .r0 31) = .ok 0x181F
    ∧ encodeCheckedWith swapped (.ldx .x1 false 32) = .error .outOfRange
    ∧ encodeCheckedWith swapped (.ldx .x1 false 31) = .ok 0x885F := by decide

theorem test_witness_octal : octalDigits (ofOctalDigits [1, 7, 7, 7, 7, 7]) = [1, 7, 7, 7, 7, 7] := by decide

/-- The last legal and the first illegal index on either side, and a value below 0. -/
theorem test_witness_register_file : rfWriteGpr (-1) 5 cold = .error (.invalidRegister (-1) cold)
    ∧ rfWriteGpr 4 5 cold = .error (.invalidRegister 4 cold) ∧ rfWriteGpr 0 (-1) cold = .ok (cold.setGpr .r0 0xFFFF)
    ∧ rfWriteGpr 3 65536 cold = .ok (cold.setGpr .r3 0) ∧ rfWriteIxr (-1) 5 cold = .error (.invalidRegister (-1) cold)
    ∧ rfWriteIxr 3 5 cold = .error (.invalidRegister 3 cold) ∧ rfWriteIxr 0 (-1) cold = .ok (cold.setIxr .i0 0xFFFF)
    ∧ rfWriteIxr 2 65537 cold = .ok (cold.setIxr .i2 1) := by decide

/-- The smallest machine and the largest memory. -/
theorem test_witness_reset_inv : (1 ≤ 1 ∧ 1 ≤ 65536 ∧ 1 ≤ 1) ∧ (1 ≤ 65536 ∧ 65536 ≤ 65536 ∧ 1 ≤ 16) := by decide

/-- An image that names one word twice, and one word that does not exist. -/
theorem test_witness_launch : (1 ≤ 60 ∧ 60 ≤ 65536 ∧ 1 ≤ 2)
    ∧ (leftBy (launch 60 2 [(6, 1), (6, 2), (60, 3)] 4101) cold).view 6 = 2
    ∧ (leftBy (launch 60 2 [(6, 1), (6, 2), (60, 3)] 4101) cold).mfr.oob = true
    ∧ (leftBy (launch 60 2 [(6, 1), (59, 2)] 4101) cold).mfr.oob = false
    ∧ (leftBy (launch 60 2 [(6, 1), (59, 2)] 4101) cold).pc = 5 := by decide

theorem test_witness_load_refused : (∃ l ∈ half.lines, l.valid = true) ∧ ¬ ∃ l ∈ cold.lines, l.valid = true := by decide

/-! ### Memory and cache -/

/-- A hit, a miss with an empty victim, with a clean one and with a dirty one, and an address out of bounds. -/
theorem test_witness_read : clean.Inv ∧ cold.Inv ∧ warm.Inv ∧ tight.Inv ∧ clean.lookup (tagOf 8) = some 0
    ∧ cold.lookup (tagOf 8) = none ∧ clean.lookup (tagOf 24) = none ∧ warm.lookup (tagOf 24) = none
    ∧ tight.inBounds 60 = false := by
  refine ⟨test_inv_clean, test_inv_cold, test_inv_warm, test_inv_tight, by decide, by decide, by decide, by decide, by decide⟩

/-- Another word of the block that is written, and a word of another block. -/
theorem test_witness_write : warm.Inv ∧ (warm.inBounds 9 = true ∧ (9 : Word) ≠ 8)
    ∧ (warm.inBounds 2047 = true ∧ (2047 : Word) ≠ 8) := ⟨test_inv_warm, by decide, by decide⟩

/-- A hit; a miss with a word outside the victim's block; and a miss on the tag an empty victim has left over. -/
theorem test_witness_write_held : warm.Inv ∧ (warm.lookup (tagOf 8)).isSome = true ∧ warm.lookup (tagOf 24) = none
    ∧ (∀ o, 0 ≠ blockAddr (warm.line warm.victim).tag o)
    ∧ cold.Inv ∧ cold.lookup (tagOf 0) = none ∧ (cold.line cold.victim).tag = tagOf 0 :=
  ⟨test_inv_warm, by decide, by decide, by decide, test_inv_cold, by decide, by decide⟩

/-- A hit; the straddling block, at a word that exists and at one that does not. -/
theorem test_witness_oob : warm.Inv ∧ (warm.lookup (tagOf 8)).isSome = true
    ∧ tight.Inv ∧ tight.lookup (tagOf 59) = none ∧ tight.blockInBounds (tagOf 59) = false ∧ tight.inBounds 59 = true
    ∧ tight.lookup (tagOf 60) = none ∧ tight.inBounds 60 = false :=
  ⟨test_inv_warm, by decide, test_inv_tight, by decide, by decide, by decide, by decide, by decide⟩

/-- A miss on a block that exists: the write-back of the straddling block sets OOB again, for a read and a write, and
its words beyond memory are lost; a dirty victim that exists and a clean one set nothing. -/
theorem test_witness_oob_eviction : spill.Inv ∧ spill.lookup (tagOf 24) = none ∧ spill.blockInBounds (tagOf 24) = true
    ∧ (spill.line spill.victim).valid = true ∧ (spill.line spill.victim).dirty = true
    ∧ spill.blockInBounds (spill.line spill.victim).tag = false ∧ spill.mfr.oob = false
    ∧ (memRead 24 spill).2.mfr.oob = true ∧ (memWrite 24 1 spill).mfr.oob = true
    ∧ tagOf 60 = (spill.line spill.victim).tag ∧ spill.inBounds 60 = false
    ∧ warm.Inv ∧ warm.lookup (tagOf 24) = none ∧ warm.blockInBounds (tagOf 24) = true ∧ warm.evictionFits = true
    ∧ clean.Inv ∧ clean.lookup (tagOf 24) = none ∧ clean.evictionFits = true :=
  ⟨test_inv_spill, by decide, by decide, by decide, by decide, by decide, by decide, by decide, by decide, by decide,
    by decide, test_inv_warm, by decide, by decide, by decide, test_inv_clean, by decide, by decide⟩

/-- The last whole block of a memory of 60 words, and the last one of a memory of 2048. -/
theorem test_witness_in_bounds : warm.Inv ∧ warm.NoOobLine ∧ warm.blockInBounds (tagOf 2047) = true
    ∧ tight.Inv ∧ tight.NoOobLine ∧ tight.blockInBounds (tagOf 55) = true := by
  refine ⟨test_inv_warm, ?_, by decide, test_inv_tight, ?_, by decide⟩ <;> (unfold State.NoOobLine; decide)

/-- A miss on an empty, a clean and a dirty victim, and a line that is not the victim. -/
theorem test_witness_miss : cold.Inv ∧ cold.lookup (tagOf 24) = none ∧ clean.Inv ∧ clean.lookup (tagOf 24) = none
    ∧ warm.Inv ∧ warm.lookup (tagOf 24) = none ∧ 0 ≠ warm.victim :=
  ⟨test_inv_cold, by decide, test_inv_clean, by decide, test_inv_warm, by decide, by decide⟩

/-- A dirty victim, its first and last word, a word just outside it; and a clean and an empty victim. -/
theorem test_witness_write_back : warm.Inv ∧ warm.lookup (tagOf 24) = none ∧ (warm.line warm.victim).valid = true
    ∧ (warm.line warm.victim).dirty = true ∧ ((warm.line warm.victim).tag.toNat <<< 3) + (0 : Fin 8).val < warm.mem.size
    ∧ ((warm.line warm.victim).tag.toNat <<< 3) + (7 : Fin 8).val < warm.mem.size
    ∧ (∀ o : Fin 8, 15 ≠ ((warm.line warm.victim).tag.toNat <<< 3) + o.val)
    ∧ (∀ o : Fin 8, 24 ≠ ((warm.line warm.victim).tag.toNat <<< 3) + o.val)
    ∧ clean.Inv ∧ ¬ ((clean.line clean.victim).valid = true ∧ (clean.line clean.victim).dirty = true)
    ∧ cold.Inv ∧ ¬ ((cold.line cold.victim).valid = true ∧ (cold.line cold.victim).dirty = true) :=
  ⟨test_inv_warm, by decide, by decide, by decide, by decide, by decide, by decide, by decide, test_inv_clean, by decide,
    test_inv_cold, by decide⟩

/-- One line empty and one valid, hit and not hit. -/
theorem test_witness_no_eviction : half.Inv ∧ (∃ i < half.lines.length, (half.line i).valid = false)
    ∧ (half.line 0).valid = true ∧ (half.line 0).tag = tagOf 8 ∧ (half.line 0).tag ≠ tagOf 16 :=
  ⟨test_inv_half, by decide, by decide, by decide, by decide⟩

/-- A hit that changes the order, and a miss. -/
theorem test_witness_lru : clean.Inv ∧ clean.lookup (tagOf 8) = some 0 ∧ clean.lru = [0, 1]
    ∧ (memRead 8 clean).2.lru = [1, 0] ∧ cold.lookup (tagOf 8) = none :=
  ⟨test_inv_clean, by decide, by decide, by decide, by decide⟩

/-- The four modes at one state: IXR[0] is 3, word 10 is 20. -/
theorem test_witness_resolver : cold.Inv ∧ effAddr .noIndex false 10 cold = 10 ∧ effAddr .x1 false 10 cold = 13
    ∧ effAddr .noIndex true 10 cold = 20 ∧ effAddr .x1 true 7 cold = 20 ∧ (resolve .noIndex false 10 cold).2 = cold :=
  ⟨test_inv_cold, by decide, by decide, by decide, by decide, by decide⟩

/-! ### The step -/

/-- A word with the default map, and a word that the other map reads otherwise. -/
theorem test_witness_step : (at6 0x041D).Inv
    ∧ decode ((at6 0x041D).view (zextPc (at6 0x041D).pc)) = .ok (.ldr .r0 .noIndex false 29)
    ∧ (at6 0x848A).Inv
    ∧ decodeWith swapped ((at6 0x848A).view (zextPc (at6 0x848A).pc)) = .ok (.stx .x2 false 10) :=
  ⟨inv_of_check (by decide), by decide, inv_of_check (by decide), by decide⟩

/-- The fetch of the illegal word fills a line; IOP comes on top of what it left. -/
theorem test_witness_step_illegal : (at6 0xFC00).Inv
    ∧ decodeWith Mnemonic.opc ((at6 0xFC00).view (zextPc (at6 0xFC00).pc)) = .error (.illegalOpcode 0o77)
    ∧ decodeWith swapped ((at6 0xFC00).view (zextPc (at6 0xFC00).pc)) = .error (.illegalOpcode 0o77)
    ∧ (after (at6 0xFC00)).mfr = { oob := false, iop := true, itr := false, rsv := false }
    ∧ (after (at6 0xFC00)).lines = (fetch (at6 0xFC00)).lines :=
  ⟨inv_of_check (by decide), by decide, by decide, by decide, by decide⟩

/-- A step that transfers no control, a halt, an error, and the increment from 4095. -/
theorem test_witness_pc : (at6 0x041D).Inv ∧ step (at6 0x041D) = .next (after (at6 0x041D))
    ∧ transfers (.ldr .r0 .noIndex false 29) = false
    ∧ (at6 0).Inv ∧ step (at6 0) = .next (after (at6 0)) ∧ (after (at6 0)).report = .halts
    ∧ (at6 0x8407).Inv ∧ errorOf (step (at6 0x8407)) = some (.invalidRegister 0 (after (at6 0x8407)))
    ∧ (fetch { cold with pc := 4095 }).pc.toNat = 0 :=
  ⟨inv_of_check (by decide), eq_next _ (by decide), by decide, inv_of_check (by decide), eq_next _ (by decide), by decide,
    inv_of_check (by decide), by decide, by decide⟩

theorem test_witness_report : OpcodeMap.Legal swapped ∧ (at6 0x03FF).Inv
    ∧ isNext (stepWith swapped (at6 0x03FF)) = true ∧ step (at6 0x03FF) = .next (after (at6 0x03FF))
    ∧ opcodeField ((at6 0x03FF).view (zextPc (at6 0x03FF).pc)) = 0
    ∧ (at6 0x041D).Inv ∧ step (at6 0x041D) = .next (after (at6 0x041D))
    ∧ opcodeField ((at6 0x041D).view (zextPc (at6 0x041D).pc)) ≠ 0 :=
  ⟨test_swapped_legal, inv_of_check (by decide), by decide, eq_next _ (by decide), by decide, inv_of_check (by decide),
    eq_next _ (by decide), by decide⟩

/-- The three checks, each ending a step: LDX 0, MLT 1,2 and DVD 0,3; and a step that ends in none. -/
theorem test_witness_errors : (at6 0x8407).Inv ∧ (errorOf (step (at6 0x8407))).isSome = true
    ∧ (at6 0x4180).Inv ∧ (errorOf (step (at6 0x4180))).isSome = true
    ∧ (at6 0x44C0).Inv ∧ (errorOf (step (at6 0x44C0))).isSome = true
    ∧ (at6 0x4480).Inv ∧ errorOf (step (at6 0x4480)) = none :=
  ⟨inv_of_check (by decide), by decide, inv_of_check (by decide), by decide, inv_of_check (by decide), by decide,
    inv_of_check (by decide), by decide⟩

/-- A store, a trap, a halt and an illegal opcode, from a cache with dirty lines too. -/
theorem test_witness_step_invariant : (at6 0x0A14).Inv ∧ step (at6 0x0A14) = .next (after (at6 0x0A14))
    ∧ (at6 0x6001).Inv ∧ step (at6 0x6001) = .next (after (at6 0x6001))
    ∧ (at6 0xFC00).Inv ∧ step (at6 0xFC00) = .next (after (at6 0xFC00))
    ∧ warm.Inv ∧ step warm = .next (after warm) :=
  ⟨inv_of_check (by decide), eq_next _ (by decide), inv_of_check (by decide), eq_next _ (by decide),
    inv_of_check (by decide), eq_next _ (by decide), test_inv_warm, eq_next _ (by decide)⟩

/-- All the sticky flags set before a step that does not set them. -/
def flagged : State := { withCc (at6 0x041D) true true true false with mfr := { oob := true, iop := true, itr := true, rsv := true } }

theorem test_witness_sticky : flagged.Inv ∧ step flagged = .next (after flagged)
    ∧ (flagged.cc.ov = true ∧ flagged.cc.uf = true ∧ flagged.cc.dz = true) ∧ ∀ f, mfrGet f flagged = true :=
  ⟨inv_of_check (by decide), eq_next _ (by decide), by decide, fun f => by cases f <;> rfl⟩

/-- STR to the address pc holds. -/
theorem test_witness_store_then_fetch : cold.Inv ∧ isNext (exec (.str .r0 .noIndex false 6) cold) = true
    ∧ effAddr .noIndex false 6 cold = zextPc (leftBy (exec (.str .r0 .noIndex false 6) cold) cold).pc :=
  ⟨test_inv_cold, by decide, by decide⟩

/-- The last word that exists, in a block that is not resident; and a resident block. -/
theorem test_witness_placed : ({ cold with pc := 2047 } : State).Inv
    ∧ ({ cold with pc := 2047 } : State).inBounds (zextPc 2047) = true ∧ cold.lookup (tagOf (zextPc 2047)) = none
    ∧ ({ warm with pc := 8 } : State).Inv ∧ ({ warm with pc := 8 } : State).inBounds (zextPc 8) = true
    ∧ warm.lookup (tagOf (zextPc 8)) = some 0 ∧ warm.lookup (tagOf (zextPc 8)) ≠ some 1 :=
  ⟨inv_of_check (by decide), by decide, by decide, inv_of_check (by decide), by decide, by decide⟩

/-! ### The table of R140 -/

/-- Instructions that write one, two and no register, an index register, and pc. -/
theorem test_witness_writes : cold.Inv ∧ isNext (exec (.air .r2 1) cold) = true ∧ gprsWritten (.air .r2 1) = [.r2]
    ∧ isNext (exec (.mlt .r0 .r2) cold) = true ∧ gprsWritten (.mlt .r0 .r2) = [.r0, .r1]
    ∧ isNext (exec (.ldx .x3 false 9) cold) = true ∧ ixrWritten (.ldx .x3 false 9) = some .i2
    ∧ isNext (exec (.jma .noIndex false 9) cold) = true ∧ transfers (.jma .noIndex false 9) = true :=
  ⟨test_inv_cold, by decide, by decide, by decide, by decide, by decide, by decide, by decide, by decide⟩

theorem test_witness_flags : cold.Inv ∧ isNext (exec (.amr .r0 .noIndex false 10) cold) = true
    ∧ Instr.mnemonic (.amr .r0 .noIndex false 10) = .AMR ∧ isNext (exec (.ldr .r0 .noIndex false 10) cold) = true
    ∧ Mnemonic.LDR ∉ [Mnemonic.AMR, .SMR, .AIR, .MLT] ∧ Mnemonic.LDR ∉ [Mnemonic.AMR, .SMR, .SIR] :=
  ⟨test_inv_cold, by decide, by decide, by decide, by decide, by decide⟩

theorem test_witness_stores : cold.Inv ∧ isNext (exec (.ldr .r0 .x1 true 7) cold) = true
    ∧ stores (.ldr .r0 .x1 true 7) = false :=
  ⟨test_inv_cold, by decide, by decide⟩

theorem test_witness_no_access : (Instr.mnemonic (.dvd .r0 .r2)).format ∉ [Format.MR, .XR, .TRAP]
    ∧ isNext (exec (.dvd .r0 .r2) cold) = true ∧ (Instr.mnemonic .hlt).format ∉ [Format.MR, .XR, .TRAP]
    ∧ isNext (exec .hlt cold) = true := by decide

/-! ### The instructions -/

/-- LDR, direct and indirect, at addresses that exist; and out of bounds, where the sentinel is loaded. -/
theorem test_witness_ldr : cold.Inv ∧ cold.inBounds (effAddr .noIndex false 20 cold) = true
    ∧ (leftBy (exec (.ldr .r1 .noIndex false 20) cold) cold).gpr.r1 = 99
    ∧ (leftBy (exec (.ldr .r1 .noIndex true 10) cold) cold).gpr.r1 = 99
    ∧ tight.Inv ∧ ({ tight with ixr := { i0 := 60, i1 := 0, i2 := 0 } } : State).Inv
    ∧ ({ tight with ixr := { i0 := 60, i1 := 0, i2 := 0 } } : State).inBounds
        (effAddr .x1 false 0 { tight with ixr := { i0 := 60, i1 := 0, i2 := 0 } }) = false
    ∧ ({ tight with ixr := { i0 := 60, i1 := 0, i2 := 0 } } : State).lookup (tagOf 60) = none :=
  ⟨test_inv_cold, by decide, by decide, by decide, test_inv_tight, inv_of_check (by decide), by decide, by decide⟩

/-- STR, with a word of the same block that keeps its value. -/
theorem test_witness_str : cold.Inv ∧ isNext (exec (.str .r2 .noIndex false 20) cold) = true
    ∧ cold.inBounds 21 = true ∧ (21 : Word) ≠ effAddr .noIndex false 20 cold
    ∧ tight.Inv ∧ (resolve .x1 false 60 tight).2.lookup (tagOf (effAddr .x1 false 60 tight)) = none
    ∧ tight.inBounds (effAddr .x1 false 60 tight) = false :=
  ⟨test_inv_cold, by decide, by decide, by decide, test_inv_tight, by decide, by decide⟩

theorem test_witness_lda : cold.Inv ∧ (leftBy (exec (.lda .r1 .noIndex true 10) cold) cold).gpr.r1 = 20 :=
  ⟨test_inv_cold, by decide⟩

/-- The three selectors that name a register. -/
theorem test_witness_ldx : cold.Inv ∧ selectedIxr .x1 = some .i0 ∧ selectedIxr .x2 = some .i1 ∧ selectedIxr .x3 = some .i2
    ∧ cold.inBounds (effAddr .x1 false 17 cold) = true
    ∧ (leftBy (exec (.ldx .x1 false 17) cold) cold).ixr.i0 = 99 :=
  ⟨test_inv_cold, by decide, by decide, by decide, by decide, by decide⟩

theorem test_witness_stx : cold.Inv ∧ selectedIxr .x2 = some .i1
    ∧ (leftBy (exec (.stx .x2 false 16) cold) cold).view 20 = 4
    ∧ cold.inBounds 16 = true ∧ (16 : Word) ≠ effAddr .x2 false 16 cold :=
  ⟨test_inv_cold, by decide, by decide, by decide, by decide⟩

theorem test_witness_selector_zero : cold.Inv
    ∧ errorOf (exec (.ldx .noIndex false 7) cold) = some (.invalidRegister 0 cold) := ⟨test_inv_cold, by decide⟩

/-- Taken and not taken, for each register test. -/
theorem test_witness_register_jumps : cold.Inv ∧ cold.x .r0 ≠ 0 ∧ (cold.x .r1).msb = true ∧ (cold.x .r0).msb = false
    ∧ tight.Inv ∧ tight.x .r0 = 0 :=
  ⟨test_inv_cold, by decide, by decide, by decide, test_inv_tight, by decide⟩

theorem test_witness_jcc : cold.Inv ∧ flagged.Inv ∧ cold.cc.ov = false ∧ flagged.cc.ov = true :=
  ⟨test_inv_cold, inv_of_check (by decide), by decide, by decide⟩

theorem test_witness_jma : cold.Inv ∧ (leftBy (exec (.jma .noIndex true 10) cold) cold).pc = 20 :=
  ⟨test_inv_cold, by decide⟩

theorem test_witness_jsr : cold.Inv ∧ (leftBy (exec (.jsr .noIndex false 16) cold) cold).gpr.r3 = 6 :=
  ⟨test_inv_cold, by decide⟩

/-- The values at which SOB's test turns: 2 jumps, -32768 jumps; 1 and 0 do not. -/
theorem test_witness_sob : cold.Inv ∧ 1 < (cold.x .r2).toInt ∧ (cold.x .r1).toInt = -32768
    ∧ tight.Inv ∧ ¬ (1 < (tight.x .r0).toInt ∨ (tight.x .r0).toInt = -32768) :=
  ⟨test_inv_cold, by decide, by decide, test_inv_tight, by decide⟩

theorem test_witness_amr_smr : cold.Inv ∧ cold.inBounds (effAddr .noIndex false 20 cold) = true
    ∧ (leftBy (exec (.amr .r1 .noIndex false 20) cold) cold).gpr.r1 = 0x8063
    ∧ (leftBy (exec (.smr .r1 .noIndex false 20) cold) cold).cc.uf = true :=
  ⟨test_inv_cold, by decide, by decide, by decide⟩

/-- Both pairs, and equal registers. -/
theorem test_witness_mlt : (leftBy (exec (.mlt .r0 .r2) cold) cold).gpr = { r0 := 0, r1 := 14, r2 := 2, r3 := 13 }
    ∧ (leftBy (exec (.mlt .r2 .r2) cold) cold).gpr = { r0 := 7, r1 := 0x8000, r2 := 0, r3 := 4 } := by decide

/-- A divisor that is not 0, and one that is. -/
theorem test_witness_dvd : cold.x .r2 ≠ 0 ∧ (leftBy (exec (.dvd .r0 .r2) cold) cold).gpr = { r0 := 3, r1 := 1, r2 := 2, r3 := 13 }
    ∧ tight.x .r0 = 0 ∧ (leftBy (exec (.dvd .r2 .r0) tight) tight).cc.dz = true := by decide

/-- An odd register in each place, with a zero divisor too. -/
theorem test_witness_odd_pair : errorOf (exec (.mlt .r1 .r0) cold) = some (.invalidRegisterPair .r1 .r0 cold)
    ∧ errorOf (exec (.mlt .r0 .r3) cold) = some (.invalidRegisterPair .r0 .r3 cold)
    ∧ errorOf (exec (.dvd .r3 .r0) tight) = some (.invalidRegisterPair .r3 .r0 tight) := by decide

/-- Counts 0 and 15, the ends of the field. -/
theorem test_witness_src : 0 < 16 ∧ 15 < 16 ∧ (leftBy (exec (.src .r0 .logical .left 0) cold) cold).gpr.r0 = 7
    ∧ (leftBy (exec (.src .r0 .logical .left 15) cold) cold).gpr.r0 = 0x8000 := by decide

theorem test_witness_rrc : 0 < 16 ∧ 15 < 16 ∧ (leftBy (exec (.rrc .r0 .arithmetic .right 0) cold) cold).gpr.r0 = 7
    ∧ (leftBy (exec (.rrc .r0 .arithmetic .left 15) cold) cold).gpr.r0 = 0x8003 := by decide

/-- A table entry that exists and is not word 2; one that is word 2; and a word that is not word 2. -/
theorem test_witness_trap : cold.Inv ∧ cold.inBounds (cold.view 0 + BitVec.ofNat 16 1) = true
    ∧ cold.view 0 + BitVec.ofNat 16 1 ≠ 2 ∧ (leftBy (exec (.trap 1) cold) cold).pc = 28
    ∧ cold.inBounds 2 = true ∧ cold.inBounds 3 = true
    ∧ tight.Inv ∧ tight.view 0 + BitVec.ofNat 16 2 = 2 ∧ tight.inBounds 2 = true
    ∧ (leftBy (exec (.trap 2) tight) tight).pc = 6 :=
  ⟨test_inv_cold, by decide, by decide, by decide, by decide, by decide, test_inv_tight, by decide, by decide, by decide⟩

end Sys2Proof.Tests
end

section
/-! PROOFS. R60: the memory array after an access that misses is the one its miss leaves, and the miss writes the
victim back. -/

namespace Sys2Proof.Machine

/-- `(tag << 3) + o` of R60, written as a shift. -/
theorem shiftLeft_add_eq_blockAddr (tag : BitVec 13) (o : Fin 8) : tag.toNat <<< 3 + o.val = blockAddr tag o := by
  rw [blockAddr, Nat.shiftLeft_eq]

/-- An access that misses touches the memory array in its miss alone: a write's own word goes into the line. -/
theorem access_mem_of_miss {s t : State} {a v : Word} (hmiss : s.lookup (tagOf a) = none)
    (ht : t = (memRead a s).2 ∨ t = memWrite a v s) : t.mem = (miss (tagOf a) s).2.mem := by
  obtain rfl | rfl := ht
  · rw [memRead_miss hmiss]
  · rw [memWrite_miss hmiss, touch_mem, storeInLine, State.setLine_mem]

/-- Settles O19: the memory array after the access is the one of the miss, where `miss_spec` says what the write-back
did. -/
theorem writeBackCopiesTheWholeBlock : Obligations.WriteBackCopiesTheWholeBlock := by
  unfold Obligations.WriteBackCopiesTheWholeBlock
  intro s a v hinv hmiss t ht
  have m := miss_spec hinv hmiss
  simp only [access_mem_of_miss hmiss ht, shiftLeft_add_eq_blockAddr]
  exact ⟨m.memIn, m.memOut, m.memSame⟩

end Sys2Proof.Machine
end

section
/-! PROOFS. R107: the canonical word of an instruction has its opcode and its operands; and it is the word the
instruction was decoded from, with the unused bits cleared. -/

namespace Sys2Proof

/-! ### Decode of encode -/

/-- The canonical word carries the opcode of its instruction, for every map that gives HLT 0. -/
theorem opcodeField_encodeWith {opc : OpcodeMap} (h0 : opc .HLT = 0) (i : Instr) :
    opcodeField (encodeWith opc i) = opc i.mnemonic := by
  cases i with
  | hlt => exact opcodeField_zero.trans h0.symm
  | ldr | str | lda | amr | smr | jz | jne | jcc | sob | jge | jma | jsr | ldx | stx =>
    exact opcodeField_encMR ..
  | air | sir | inp | out | chk => exact opcodeField_encIM ..
  | rfs => exact opcodeField_encRFS ..
  | mlt | dvd | trr | and | orr | not => exact opcodeField_encRR ..
  | src | rrc => exact opcodeField_encSH ..
  | trap => exact opcodeField_encTRAP ..

/-- The operands read from the canonical word of a well-formed instruction are its own. -/
theorem operandsOf_encodeWith (opc : OpcodeMap) {i : Instr} (h : i.wellFormed = true) :
    operandsOf i.mnemonic (encodeWith opc i) = i := by
  cases i with
  | hlt => rfl
  | ldr | str | lda | amr | smr | jz | jne | sob | jge =>
    simp only [operandsOf, encodeWith, Instr.mnemonic, regField_encMR, ixField_encMR, indirectField_encMR,
      addressField_encMR _ _ _ _ _ h, Gpr.ofBits_toBits, IndexSel.ofBits_toBits]
  | jcc =>
    simp only [operandsOf, encodeWith, Instr.mnemonic, regField_encMR, ixField_encMR, indirectField_encMR,
      addressField_encMR _ _ _ _ _ h, CcFlag.ofBits_toBits, IndexSel.ofBits_toBits]
  | jma | jsr | ldx | stx =>
    simp only [operandsOf, encodeWith, Instr.mnemonic, encXR, ixField_encMR, indirectField_encMR,
      addressField_encMR _ _ _ _ _ h, IndexSel.ofBits_toBits]
  | air | sir | inp | out | chk =>
    simp only [operandsOf, encodeWith, Instr.mnemonic, regField_encIM, addressField_encIM _ _ _ h, Gpr.ofBits_toBits]
  | rfs => simp only [operandsOf, encodeWith, Instr.mnemonic, addressField_encRFS _ _ h]
  | mlt | dvd | trr | and | orr | not =>
    simp only [operandsOf, encodeWith, Instr.mnemonic, regField_encRR, ixField_encRR, Gpr.ofBits_toBits]
  | src | rrc =>
    simp only [operandsOf, encodeWith, Instr.mnemonic, regField_encSH, alField_encSH, lrField_encSH,
      countField_encSH _ _ _ _ _ h, Gpr.ofBits_toBits, ShiftMode.ofBit_toBit, ShiftDir.ofBit_toBit]
  | trap => simp only [operandsOf, encodeWith, Instr.mnemonic, countField_encTRAP _ _ h]

/-- A legal map's decoder gives back the instruction of a canonical word. -/
theorem decodeWith_encodeWith {opc : OpcodeMap} (h : opc.Legal) {i : Instr} (hi : i.wellFormed = true) :
    decodeWith opc (encodeWith opc i) = .ok i := by
  rw [decodeWith_of_opcode h (opcodeField_encodeWith h.2 i), operandsOf_encodeWith opc hi]

/-! ### Words with some bits cleared -/

/-- A word with the bits of a mask cleared is read bit by bit. -/
theorem clear_ext {v w mask : Word} (h : ∀ k < 16, v.getLsbD k = (!mask.getLsbD k && w.getLsbD k)) :
    v = w &&& ~~~mask := by
  apply BitVec.eq_of_getLsbD_eq
  intro k hk
  rw [h k hk, BitVec.getLsbD_and, BitVec.getLsbD_not, decide_eq_true hk, Bool.true_and, Bool.and_comm]

/-- Clearing the bits of a mask leaves a word as it is exactly when they are all 0. -/
theorem clear_eq_self_iff (w mask : Word) : w &&& ~~~mask = w ↔ w &&& mask = 0 := by
  constructor
  · intro h
    rw [← h, BitVec.and_assoc, BitVec.not_and_self]
    exact BitVec.and_zero
  · intro h
    symm
    apply clear_ext
    intro k _
    have hk : (w &&& mask).getLsbD k = false := by rw [h]; exact BitVec.getLsbD_zero
    rw [BitVec.getLsbD_and] at hk
    cases hm : mask.getLsbD k <;> simp_all

/-! ### The canonical word of the fields of a word, by format (R92 to R100) -/

section Fields
variable (w : Word)

theorem ofNat_addressField : BitVec.ofNat 5 (addressField w) = w.extractLsb' 0 5 := by
  rw [addressField, BitVec.ofNat_toNat, BitVec.setWidth_eq]

theorem ofNat_countField : BitVec.ofNat 4 (countField w) = w.extractLsb' 0 4 := by
  rw [countField, BitVec.ofNat_toNat, BitVec.setWidth_eq]

/-- A bit of a word is a field of width 1. -/
theorem ofBool_getLsbD (k : Nat) : BitVec.ofBool (w.getLsbD k) = w.extractLsb' k 1 := by
  apply BitVec.eq_of_getLsbD_eq
  intro j hj
  obtain rfl : j = 0 := by omega
  simp

theorem encMR_fields : encMR (opcodeField w) (regField w) (IndexSel.ofBits (ixField w)) (addressField w)
    (indirectField w) = w &&& ~~~0 := by
  rw [encMR, IndexSel.toBits_ofBits, ofNat_addressField, indirectField, ofBool_getLsbD]
  apply clear_ext
  intro k hk
  simp only [opcodeField, regField, ixField, BitVec.getLsbD_append, BitVec.getLsbD_extractLsb']
  interval_cases k <;> rfl

theorem encXR_fields : encXR (opcodeField w) (IndexSel.ofBits (ixField w)) (addressField w) (indirectField w)
    = w &&& ~~~0x0300 := by
  rw [encXR, encMR, IndexSel.toBits_ofBits, ofNat_addressField, indirectField, ofBool_getLsbD]
  apply clear_ext
  intro k hk
  simp only [opcodeField, ixField, BitVec.getLsbD_append, BitVec.getLsbD_extractLsb']
  interval_cases k <;> rfl

theorem encIM_fields : encIM (opcodeField w) (regField w) (addressField w) = w &&& ~~~0x00E0 := by
  rw [encIM, ofNat_addressField]
  apply clear_ext
  intro k hk
  simp only [opcodeField, regField, BitVec.getLsbD_append, BitVec.getLsbD_extractLsb']
  interval_cases k <;> rfl

theorem encRFS_fields : encRFS (opcodeField w) (addressField w) = w &&& ~~~0x03E0 := by
  rw [encRFS, ofNat_addressField]
  apply clear_ext
  intro k hk
  simp only [opcodeField, BitVec.getLsbD_append, BitVec.getLsbD_extractLsb']
  interval_cases k <;> rfl

theorem encRR_fields : encRR (opcodeField w) (regField w) (ixField w) = w &&& ~~~0x003F := by
  rw [encRR]
  apply clear_ext
  intro k hk
  simp only [opcodeField, regField, ixField, BitVec.getLsbD_append, BitVec.getLsbD_extractLsb']
  interval_cases k <;> rfl

/-- NOT leaves the `ry` field unused too (R96). -/
theorem encRR_fields_not : encRR (opcodeField w) (regField w) 0 = w &&& ~~~0x00FF := by
  rw [encRR]
  apply clear_ext
  intro k hk
  simp only [opcodeField, regField, BitVec.getLsbD_append, BitVec.getLsbD_extractLsb']
  interval_cases k <;> rfl

theorem encSH_fields : encSH (opcodeField w) (regField w) (countField w) (lrField w) (alField w)
    = w &&& ~~~0x0030 := by
  rw [encSH, ofNat_countField, lrField, alField, ofBool_getLsbD, ofBool_getLsbD]
  apply clear_ext
  intro k hk
  simp only [opcodeField, regField, BitVec.getLsbD_append, BitVec.getLsbD_extractLsb']
  interval_cases k <;> rfl

theorem encTRAP_fields : encTRAP (opcodeField w) (countField w) = w &&& ~~~0x03F0 := by
  rw [encTRAP, ofNat_countField]
  apply clear_ext
  intro k hk
  simp only [opcodeField, BitVec.getLsbD_append, BitVec.getLsbD_extractLsb']
  interval_cases k <;> rfl

/-- HLT leaves all but its opcode unused (R99). -/
theorem zero_of_opcodeField (h : opcodeField w = 0) : 0 = w &&& ~~~0x03FF := by
  have hw : opcodeField w ++ (0 : BitVec 10) = w &&& ~~~0x03FF := by
    apply clear_ext
    intro k hk
    simp only [opcodeField, BitVec.getLsbD_append, BitVec.getLsbD_extractLsb']
    interval_cases k <;> rfl
  rw [← hw, h]
  rfl

end Fields

/-! ### Encode of decode -/

theorem ShiftMode.toBit_ofBit (b : Bool) : (ShiftMode.ofBit b).toBit = b := by cases b <;> rfl
theorem ShiftDir.toBit_ofBit (b : Bool) : (ShiftDir.ofBit b).toBit = b := by cases b <;> rfl

/-- The canonical word of what a word decodes to is that word with the bits its format leaves unused cleared. -/
theorem encodeWith_operandsOf {opc : OpcodeMap} (h0 : opc .HLT = 0) {w : Word} {m : Mnemonic}
    (h : opc m = opcodeField w) : encodeWith opc (operandsOf m w) = w &&& ~~~m.unusedMask := by
  rw [encodeWith.eq_def, operandsOf_mnemonic, h]
  cases m with
  | HLT => exact zero_of_opcodeField w (h.symm.trans h0)
  | LDR | STR | LDA | AMR | SMR | JZ | JNE | SOB | JGE =>
    simp only [operandsOf, Gpr.toBits_ofBits, encMR_fields]; rfl
  | JCC => simp only [operandsOf, CcFlag.toBits_ofBits, encMR_fields]; rfl
  | JMA | JSR | LDX | STX => exact encXR_fields w
  | AIR | SIR | IN | OUT | CHK => simp only [operandsOf, Gpr.toBits_ofBits, encIM_fields]; rfl
  | RFS => exact encRFS_fields w
  | MLT | DVD | TRR | AND | ORR => simp only [operandsOf, Gpr.toBits_ofBits, encRR_fields]; rfl
  | NOT => simp only [operandsOf, Gpr.toBits_ofBits, encRR_fields_not]; rfl
  | SRC | RRC =>
    simp only [operandsOf, Gpr.toBits_ofBits, ShiftMode.toBit_ofBit, ShiftDir.toBit_ofBit, encSH_fields]; rfl
  | TRAP => exact encTRAP_fields w

/-- The same of the instruction a decoder yields. -/
theorem encodeWith_of_decodeWith {opc : OpcodeMap} (h0 : opc .HLT = 0) {w : Word} {i : Instr}
    (h : decodeWith opc w = .ok i) : encodeWith opc i = w &&& ~~~i.mnemonic.unusedMask := by
  obtain ⟨m, hm, hd⟩ | ⟨-, hd⟩ := decodeWith_cases opc w
  · obtain rfl : operandsOf m w = i := by simpa [hd] using h
    rw [encodeWith_operandsOf h0 hm, operandsOf_mnemonic]
  · simp [hd] at h

/-- The default map of R101 is one that R5 allows. -/
theorem defaultMap_legal : OpcodeMap.Legal Mnemonic.opc :=
  OpcodeMap.legal_of_found (fun m => by cases m <;> decide) rfl

/-- Settles O1: the fields of the canonical word are the operands it was built from; and the canonical word of what a
word decodes to is that word with the unused bits cleared. -/
theorem decodeOfEncodeIsIdentity : Obligations.DecodeOfEncodeIsIdentity := by
  unfold Obligations.DecodeOfEncodeIsIdentity
  refine ⟨fun opc hopc => ⟨fun i hi => decodeWith_encodeWith hopc hi, fun w i h => ?_⟩,
    fun i hi => decodeWith_encodeWith defaultMap_legal hi⟩
  rw [encodeWith_of_decodeWith hopc.2 h]
  exact clear_eq_self_iff w i.mnemonic.unusedMask

end Sys2Proof
end

section
/-! PROOFS. R106: the range check of the encoder. R105: the octal text of a word. -/

namespace Sys2Proof

/-! ### The range check -/

theorem fitsUnsigned_iff {value width : Nat} : fitsUnsigned value width = true ↔ value < 2 ^ width :=
  decide_eq_true_iff

theorem toBinary_of_lt {value width : Nat} (h : value < 2 ^ width) :
    toBinary value width = .ok (BitVec.ofNat width value) :=
  if_pos (fitsUnsigned_iff.mpr h)

theorem toBinary_of_le {value width : Nat} (h : 2 ^ width ≤ value) : toBinary value width = .error .outOfRange :=
  if_neg (fun hf => absurd (fitsUnsigned_iff.mp hf) (Nat.not_lt.mpr h))

theorem encodeCheckedWith_eq_error_iff (opc : OpcodeMap) (i : Instr) :
    encodeCheckedWith opc i = .error .outOfRange ↔ i.wellFormed = false := by
  rw [encodeCheckedWith]
  cases i.wellFormed <;> simp

/-- Settles O5: `toBinary` and the encoder refuse by the one check `fitsUnsigned`; the decoder answers by
`decodeWith_cases`, which has no range check. -/
theorem toBinaryRefusesWhatDoesNotFit : Obligations.ToBinaryRefusesWhatDoesNotFit := by
  unfold Obligations.ToBinaryRefusesWhatDoesNotFit
  refine ⟨fun _ _ => toBinary_of_le,
    fun value width h => ⟨_, toBinary_of_lt h, (BitVec.toNat_ofNat ..).trans (Nat.mod_eq_of_lt h)⟩,
    fun opc => ⟨encodeCheckedWith_eq_error_iff opc, (encodeCheckedWith_eq_error_iff opc _).mpr rfl, fun w => ?_⟩⟩
  obtain ⟨m, -, h⟩ | ⟨-, h⟩ := decodeWith_cases opc w
  · exact .inl ⟨_, h⟩
  · exact .inr h

/-! ### Octal text -/

/-- A field of a word, as a number. -/
theorem extract_toNat (w : Word) (lo n : Nat) : (w.extractLsb' lo n).toNat = w.toNat / 2 ^ lo % 2 ^ n := by
  rw [BitVec.extractLsb'_toNat, Nat.shiftRight_eq_div_pow]

/-- The number six octal digits spell, modulo 2^16. -/
theorem toNat_ofOctalDigits (d5 d4 d3 d2 d1 d0 : Nat) : (ofOctalDigits [d5, d4, d3, d2, d1, d0]).toNat
    = (32768 * d5 + 4096 * d4 + 512 * d3 + 64 * d2 + 8 * d1 + d0) % 65536 := by
  simp only [ofOctalDigits, List.foldl, BitVec.toNat_ofNat]
  omega

/-- Each octal digit of a word is a field of it. -/
theorem octalDigits_eq_fields (w : Word) : octalDigits w
    = [(w.extractLsb' 15 1).toNat, (w.extractLsb' 12 3).toNat, (w.extractLsb' 9 3).toNat,
      (w.extractLsb' 6 3).toNat, (w.extractLsb' 3 3).toNat, (w.extractLsb' 0 3).toNat] := by
  have hw : w.toNat < 65536 := w.isLt
  have top : w.toNat / 8 ^ 5 = w.toNat / 2 ^ 15 % 2 ^ 1 := by omega
  simp only [octalDigits, extract_toNat, top]
  norm_num

theorem ofOctalDigits_octalDigits (w : Word) : ofOctalDigits (octalDigits w) = w := by
  have hw : w.toNat < 65536 := w.isLt
  apply BitVec.eq_of_toNat_eq
  rw [octalDigits, toNat_ofOctalDigits]
  omega

theorem octalDigits_ofOctalDigits {d5 d4 d3 d2 d1 d0 : Nat} (h5 : d5 < 2) (h4 : d4 < 8) (h3 : d3 < 8) (h2 : d2 < 8)
    (h1 : d1 < 8) (h0 : d0 < 8) :
    octalDigits (ofOctalDigits [d5, d4, d3, d2, d1, d0]) = [d5, d4, d3, d2, d1, d0] := by
  rw [octalDigits, toNat_ofOctalDigits]
  simp only [List.cons.injEq, and_true]
  omega

/-- Settles O6: the digits are fields of the word, and reading and writing them are inverse on the digits below 8, the
leading one below 2. -/
theorem octalTextIsABijection : Obligations.OctalTextIsABijection := by
  unfold Obligations.OctalTextIsABijection
  exact ⟨octalDigits_eq_fields, ofOctalDigits_octalDigits,
    fun _ _ _ _ _ _ => octalDigits_ofOctalDigits, by decide, by decide⟩

end Sys2Proof
end

section
/-! PROOFS. R132: the fetch moves pc on, and what the handler then may do to pc and to the report (R140, R138). -/

namespace Sys2Proof.Machine

/-! ### The accesses of a handler (R62, R135, R214) -/

section Accesses
variable {s : State} (h : s.Inv)
include h

theorem resolve_frame (x : IndexSel) (ind : Bool) (a : Nat) : AccessFrame s (resolve x ind a s).2 :=
  (resolve_spec h x ind a).frame

/-- The read of an operand at the effective address. -/
theorem operandRead_frame (x : IndexSel) (ind : Bool) (a : Nat) :
    AccessFrame s (memRead (resolve x ind a s).1 (resolve x ind a s).2).2 :=
  have r := resolve_spec h x ind a
  r.frame.trans (memRead_spec r.inv _).frame

/-- The store of an operand at the effective address. -/
theorem operandWrite_frame (x : IndexSel) (ind : Bool) (a : Nat) (v : Word) :
    AccessFrame s (memWrite (resolve x ind a s).1 v (resolve x ind a s).2) :=
  have r := resolve_spec h x ind a
  r.frame.trans (memWrite_spec r.inv _ v).frame

/-- A TRAP writes pc after three accesses, none of which touches the report. -/
theorem takeTrap_report (code : Nat) : (takeTrap code s).report = s.report := by
  have saved := memWrite_spec h trapReturnAddr (zextPc s.pc)
  have table := memRead_spec saved.inv trapTablePtr
  have entry := memRead_spec table.inv
  exact ((saved.frame.trans table.frame).trans (entry _).frame).report

end Accesses

theorem jumpIf_report (c : Bool) (ea : Word) (s : State) : (jumpIf c ea s).report = s.report := by
  rw [jumpIf_eq]

/-! ### What a handler answers -/

/-- What the handler of an instruction answers in a state: it completes, with pc moved only by a transfer of control
(R140) and the report changed only by HLT (R213), or it ends in an error whose state differs by accesses only (R138).
It never refuses. -/
inductive HandlerAnswer (i : Instr) (s : State) : Host.Outcome State Fault Refusal → Prop
  | next {t : State} (pc : transfers i = false → t.pc = s.pc) (report : i ≠ .hlt → t.report = s.report) :
    HandlerAnswer i s (.next t)
  | fault {f : Fault} (left : AccessFrame s f.left) : HandlerAnswer i s (.fault f)

/-- Each handler's answer, by the kind of access it makes. -/
theorem exec_answer {s : State} (h : s.Inv) (i : Instr) : HandlerAnswer i s (exec i s) := by
  cases i with
  | hlt => exact .next (fun _ => rfl) (fun hi => absurd rfl hi)
  | air | sir | trr | and | orr | not | src | rrc | inp | out | chk => exact .next (fun _ => rfl) (fun _ => rfl)
  | rfs => exact .next nofun (fun _ => rfl)
  | lda _ x ind a =>
    have f := resolve_frame h x ind a
    exact .next (fun _ => f.pc) (fun _ => f.report)
  | ldr _ x ind a | amr _ x ind a | smr _ x ind a =>
    have f := operandRead_frame h x ind a
    exact .next (fun _ => f.pc) (fun _ => f.report)
  | str _ x ind a =>
    have f := operandWrite_frame h x ind a
    exact .next (fun _ => (f _).pc) (fun _ => (f _).report)
  | jz _ x ind a | jne _ x ind a | jcc _ x ind a | jge _ x ind a | sob _ x ind a | jma x ind a | jsr x ind a =>
    exact .next nofun (fun _ => (jumpIf_report ..).trans (resolve_frame h x ind a).report)
  | trap code => exact .next nofun (fun _ => takeTrap_report h code)
  | ldx x ind a =>
    have f := operandRead_frame h x ind a
    cases x with
    | noIndex => exact .fault (resolve_frame h _ ind a)
    | x1 | x2 | x3 => exact .next (fun _ => f.pc) (fun _ => f.report)
  | stx x ind a =>
    have f := operandWrite_frame h x ind a
    cases x with
    | noIndex => exact .fault (resolve_frame h _ ind a)
    | x1 | x2 | x3 => exact .next (fun _ => (f _).pc) (fun _ => (f _).report)
  | mlt rx ry =>
    rw [exec, execMlt]
    split
    · exact .next (fun _ => rfl) (fun _ => rfl)
    · exact .fault (AccessFrame.refl s)
  | dvd rx ry =>
    rw [exec, execDvd]
    split
    · dsimp only
      split <;> exact .next (fun _ => rfl) (fun _ => rfl)
    · exact .fault (AccessFrame.refl s)

section Exec
variable {i : Instr} {s t : State} (h : s.Inv)
include h

theorem exec_pc (ht : exec i s = .next t) (hi : transfers i = false) : t.pc = s.pc := by
  cases ht ▸ exec_answer h i with
  | next pc _ => exact pc hi

theorem exec_report (ht : exec i s = .next t) (hi : i ≠ .hlt) : t.report = s.report := by
  cases ht ▸ exec_answer h i with
  | next _ report => exact report hi

theorem exec_fault_left {f : Fault} (hf : exec i s = .fault f) : AccessFrame s f.left := by
  cases hf ▸ exec_answer h i with
  | fault left => exact left

/-- HLT alone reports `halt` (R213), and it does not move pc. -/
theorem exec_pc_of_halts (ht : exec i s = .next t) (hs : s.report = .continues) (hhalt : t.report = .halts) :
    t.pc = s.pc := by
  by_cases hi : i = .hlt
  · exact exec_pc h ht (hi ▸ rfl)
  · have hr : t.report = s.report := exec_report h ht hi
    rw [hhalt, hs] at hr
    contradiction

end Exec

/-! ### The increment (R132) -/

/-- Settles O25: the fetch increments pc, an illegal opcode sets a flag only, and the handler keeps the pc it sees by
`exec_pc`, `exec_pc_of_halts` and `exec_fault_left`. -/
theorem pcIsIncrementedAfterTheFetch : Obligations.PcIsIncrementedAfterTheFetch := by
  unfold Obligations.PcIsIncrementedAfterTheFetch
  refine ⟨fun s => BitVec.toNat_add s.pc 1, fun opc => ⟨?_, ?_, ?_⟩⟩
  · intro s t i h hd hi ht
    obtain ⟨j, hj, hstep⟩ | ⟨⟨e, he⟩, -⟩ := stepWith_cases opc h
    · obtain rfl : i = j := Except.ok.inj (hd.symm.trans hj)
      exact exec_pc (fetch_inv h) (hstep.symm.trans ht) hi
    · rw [hd] at he
      contradiction
  · intro s t h ht hhalt
    obtain ⟨j, -, hstep⟩ | ⟨-, hstep⟩ := stepWith_cases opc h
    · exact exec_pc_of_halts (fetch_inv h) (hstep.symm.trans ht) rfl hhalt
    · obtain rfl := Host.Outcome.next.inj (hstep.symm.trans ht)
      rfl
  · intro s f h hf
    obtain ⟨j, -, hstep⟩ | ⟨-, hstep⟩ := stepWith_cases opc h
    · exact (exec_fault_left (fetch_inv h) (hstep.symm.trans hf)).pc
    · exact absurd (hstep.symm.trans hf) nofun

end Sys2Proof.Machine
end

section
/-! PROOFS. R150, R151: a load and a store are one access at the effective address, in the state the resolver leaves. -/

namespace Sys2Proof.Machine

/-! ### An access out of bounds (R51, R64) -/

/-- A word that does not exist lies in a block that does not wholly exist. -/
theorem State.blockInBounds_eq_false {s : State} {a : Word} (ha : s.inBounds a = false) :
    s.blockInBounds (tagOf a) = false := by
  simp only [State.inBounds, State.blockInBounds, decide_eq_false_iff_not, ← blockAddr_tagOf a] at ha ⊢
  exact fun hb => ha ((offsets_inBounds (tagOf a) s.mem.size).mpr hb (offsetOf a) (mem_offsets _))

/-- Out of bounds and not cached, a word reads as the sentinel. -/
theorem State.view_eq_oobSentinel {s : State} {a : Word} (hmiss : s.lookup (tagOf a) = none)
    (ha : s.inBounds a = false) : s.view a = Config.oobSentinel := by
  rw [State.view, hmiss]
  exact if_neg (of_decide_eq_false ha)

/-! ### Where a store stays (R58) -/

section Store
variable {s : State} (h : s.Inv) (a v : Word)
include h

/-- After a store the block is resident, in a dirty line. -/
theorem memWrite_lookup_dirty :
    ∃ k, (memWrite a v s).lookup (tagOf a) = some k ∧ ((memWrite a v s).line k).dirty = true := by
  have w := memWrite_spec h a v
  obtain ⟨k, l⟩ := accessLine_spec h a v
  refine ⟨k, State.lookup_of w.inv.tagsUnique (w.frame.cacheLines ▸ l.lt) ?_ ?_, ?_⟩ <;> rw [l.written]

/-- A store leaves the memory array's own word at its address: a miss writes back the victim only, whose block is
another one. -/
theorem memWrite_mem_word_self : (memWrite a v s).mem.word a.toNat = s.mem.word a.toNat := by
  cases hl : s.lookup (tagOf a) with
  | some k => rw [memWrite_hit hl, touch_mem, storeInLine, State.setLine_mem]
  | none =>
    have m := miss_spec h hl
    rw [access_mem_of_miss hl (.inr rfl)]
    by_cases hd : (s.line s.victim).valid = true ∧ (s.line s.victim).dirty = true
    · refine m.memOut _ fun o e => State.lookup_none hl h.victim_lt hd.1 ?_
      exact (blockAddr_inj ((blockAddr_tagOf a).trans e)).1.symm
    · rw [m.memSame hd]

end Store

/-! ### The two handlers (R150, R151) -/

section Handlers
variable {s : State} (h : s.Inv) (r : Gpr) (x : IndexSel) (i : Bool) (a : Nat)
include h

/-- LDR writes the word the read delivers into the register file as it was. -/
theorem exec_ldr : exec (.ldr r x i a) s
    = .next { (memRead (effAddr x i a s) (resolve x i a s).2).2 with
        gpr := s.gpr.set r ((resolve x i a s).2.view (effAddr x i a s)) } := by
  have p := resolve_spec h x i a
  have m := memRead_spec p.inv (effAddr x i a s)
  simp only [exec, execLdr, State.setGpr, p.ea, m.value, (p.frame.trans m.frame).gpr]

/-- STR stores the register as it was. -/
theorem exec_str : exec (.str r x i a) s
    = .next (memWrite (effAddr x i a s) (s.x r) (resolve x i a s).2) := by
  have p := resolve_spec h x i a
  simp only [exec, execStr, p.ea, p.frame.x]

end Handlers

/-- Settles O36: LDR is `exec_ldr`, one read by `memRead_spec` after the resolver's by `resolve_spec`. -/
theorem ldrLoadsTheWordAtTheAddress : Obligations.LdrLoadsTheWordAtTheAddress := by
  unfold Obligations.LdrLoadsTheWordAtTheAddress
  intro s r x i a h
  have p := resolve_spec h x i a
  have m := memRead_spec p.inv (effAddr x i a s)
  refine ⟨_, _, exec_ldr h r x i a, rfl, p.words _, fun hmiss hout => ?_, rfl, p.frame.trans m.frame,
    p.words.trans p.frame m.words⟩
  have hout' := (p.frame.inBounds _).trans hout
  exact ⟨State.view_eq_oobSentinel hmiss hout', m.oob hmiss (State.blockInBounds_eq_false hout')⟩

/-- Settles O37: STR is `exec_str`, one write by `memWrite_spec` after the resolver's read by `resolve_spec`; the word
stays in its line by `memWrite_lookup_dirty` and `memWrite_mem_word_self`. -/
theorem strStoresTheRegister : Obligations.StrStoresTheRegister := by
  unfold Obligations.StrStoresTheRegister
  intro s r x i a h
  have p := resolve_spec h x i a
  have w := memWrite_spec p.inv (effAddr x i a s) (s.x r)
  refine ⟨_, exec_str h r x i a, rfl, w.here, p.frame.trans w.frame, fun b hb hne => ?_,
    memWrite_lookup_dirty p.inv _ _, memWrite_mem_word_self p.inv _ _, fun hmiss hout => ?_⟩
  · exact (w.words b ((p.frame.inBounds b).trans hb) hne).trans (p.words b hb)
  · exact w.oob hmiss (State.blockInBounds_eq_false ((p.frame.inBounds _).trans hout))

end Sys2Proof.Machine
end

section
/-! PROOFS. R160, R161, R163, R167: a jump sets pc in the state the resolver leaves. -/

namespace Sys2Proof.Machine

/-- The test of JGE is on the sign bit (R167). -/
theorem s16_nonneg_iff (v : Word) : 0 ≤ s16 v ↔ ¬ v.msb = true := by
  rw [s16, BitVec.msb_eq_toInt, decide_eq_true_iff, not_lt]

section Jumps
variable {s : State} (h : s.Inv) (r : Gpr) (x : IndexSel) (i : Bool) (a : Nat)
include h

/-- A jump to the resolver's address: pc alone differs from the state the resolver leaves, and not taken it is the pc
of before (R168). -/
theorem jumpIf_resolve (c : Bool) : jumpIf c (resolve x i a s).1 (resolve x i a s).2
    = { (resolve x i a s).2 with pc := if c then (effAddr x i a s).setWidth 12 else s.pc } := by
  have p := resolve_spec h x i a
  rw [jumpIf_eq, p.ea, p.frame.pc]

theorem exec_jz : exec (.jz r x i a) s
    = .next { (resolve x i a s).2 with pc := if s.x r = 0 then (effAddr x i a s).setWidth 12 else s.pc } := by
  simp only [exec, execJz, jumpIf_resolve h, (resolve_frame h x i a).x, decide_eq_true_iff]

theorem exec_jne : exec (.jne r x i a) s
    = .next { (resolve x i a s).2 with pc := if s.x r = 0 then s.pc else (effAddr x i a s).setWidth 12 } := by
  simp only [exec, execJne, jumpIf_resolve h, (resolve_frame h x i a).x, decide_eq_true_iff, ne_eq, ite_not]

theorem exec_jge : exec (.jge r x i a) s
    = .next { (resolve x i a s).2 with pc := if (s.x r).msb then s.pc else (effAddr x i a s).setWidth 12 } := by
  simp only [exec, execJge, jumpIf_resolve h, (resolve_frame h x i a).x, decide_eq_true_iff, s16_nonneg_iff, ite_not]

theorem exec_jma : exec (.jma x i a) s
    = .next { (resolve x i a s).2 with pc := (effAddr x i a s).setWidth 12 } :=
  congrArg Host.Outcome.next (jumpIf_resolve h x i a true)

end Jumps

/-- Settles O42: each jump's next state is `exec_jz`, `exec_jne` and `exec_jge`; what the pointer read leaves is
`resolve_spec`. -/
theorem registerJumpsTestTheRegister : Obligations.RegisterJumpsTestTheRegister := by
  unfold Obligations.RegisterJumpsTestTheRegister
  intro s r x i a h
  have p := resolve_spec h x i a
  exact ⟨_, exec_jz h r x i a, exec_jne h r x i a, exec_jge h r x i a, rfl, p.frame, p.words⟩

/-- Settles O44: the next state is `exec_jma`; what the pointer read leaves, and that there is none in the direct form,
is `resolve_spec`. -/
theorem jmaJumpsToTheAddress : Obligations.JmaJumpsToTheAddress := by
  unfold Obligations.JmaJumpsToTheAddress
  intro s x i a h
  have p := resolve_spec h x i a
  exact ⟨_, exec_jma h x i a, rfl, p.frame, p.words, p.direct⟩

end Sys2Proof.Machine
end

section
/-! PROOFS. R246: the sticky flags only ever rise in a step (R29, R53). -/

namespace Sys2Proof.Machine

/-- Of the flags that R246 speaks of, all but EQ, none is set in the first state and clear in the second. -/
def KeepsSticky (s t : State) : Prop :=
  (∀ f, f ≠ .eq → ccGet f s = true → ccGet f t = true) ∧ ∀ f, mfrGet f s = true → mfrGet f t = true

/-! ### What keeps the sticky flags -/

theorem KeepsSticky.refl (s : State) : KeepsSticky s s := ⟨fun _ _ => id, fun _ => id⟩

theorem KeepsSticky.trans {s t u : State} (h : KeepsSticky s t) (k : KeepsSticky t u) : KeepsSticky s u := by
  obtain ⟨hcc, hmfr⟩ := h
  obtain ⟨kcc, kmfr⟩ := k
  exact ⟨fun f hf => kcc f hf ∘ hcc f hf, fun f => kmfr f ∘ hmfr f⟩

/-- An access sets OOB or leaves the flags (R53). -/
theorem AccessFrame.keepsSticky {s t : State} (h : AccessFrame s t) : KeepsSticky s t := by
  refine ⟨fun f _ hf => ?_, fun f hf => ?_⟩
  · rwa [ccGet, h.cc]
  · cases f with
    | oob => exact h.oobSticky hf
    | iop => exact h.iop.trans hf
    | itr => exact h.itr.trans hf
    | rsv => exact h.rsv.trans hf

/-- Writing a condition code, if it is EQ or the write does not clear it. -/
theorem ccSet_keepsSticky {s : State} {f : CcFlag} {b : Bool} (hb : f ≠ .eq → ccGet f s = true → b = true) :
    KeepsSticky s (ccSet f b s) := by
  refine ⟨fun g hg hs => ?_, fun _ => id⟩
  rw [ccGet, ccSet, CondCodes.get_set]
  split
  · next e => exact hb (e ▸ hg) (e ▸ hs)
  · exact hs

theorem raiseMfr_keepsSticky (s : State) (f : MfrFlag) : KeepsSticky s (s.raiseMfr f) := by
  refine ⟨fun _ _ => id, fun g hg => ?_⟩
  rw [mfrGet, State.raiseMfr_mfr, FaultFlags.get_set]
  split
  · rfl
  · exact hg

theorem setOverflow_keepsSticky (t : Int) (s : State) : KeepsSticky s (setOverflow t s) :=
  ccSet_keepsSticky (f := .ov) fun _ => Bool.or_inl

theorem setUnderflow_keepsSticky (t : Int) (s : State) : KeepsSticky s (setUnderflow t s) :=
  ccSet_keepsSticky (f := .uf) fun _ => Bool.or_inl

theorem setMltOverflow_keepsSticky (hi : Word) (s : State) : KeepsSticky s (setMltOverflow hi s) :=
  ccSet_keepsSticky (f := .ov) fun _ => Bool.or_inl

theorem setDivideByZero_keepsSticky (s : State) : KeepsSticky s (setDivideByZero s) :=
  ccSet_keepsSticky (f := .dz) fun _ _ => rfl

theorem writeEqual_keepsSticky (a b : Word) (s : State) : KeepsSticky s (writeEqual a b s) :=
  ccSet_keepsSticky (f := .eq) fun he => absurd rfl he

theorem setGpr_keepsSticky {s t : State} (h : KeepsSticky s t) (r : Gpr) (v : Word) : KeepsSticky s (t.setGpr r v) := h

theorem jumpIf_keepsSticky {s t : State} (h : KeepsSticky s t) (c : Bool) (ea : Word) :
    KeepsSticky s (jumpIf c ea t) := by
  rw [jumpIf_eq]
  exact h

theorem takeTrap_keepsSticky {s : State} (h : s.Inv) (code : Nat) : KeepsSticky s (takeTrap code s) := by
  have saved := memWrite_spec h trapReturnAddr (zextPc s.pc)
  have table := memRead_spec saved.inv trapTablePtr
  have entry := memRead_spec table.inv
  exact ((saved.frame.trans table.frame).trans (entry _).frame).keepsSticky

theorem fetch_keepsSticky {s : State} (h : s.Inv) : KeepsSticky s (fetch s) :=
  (memRead_spec h (zextPc s.pc)).frame.keepsSticky

/-! ### The handlers -/

/-- The same of an outcome: a handler that completes keeps the sticky flags. -/
def NextKeepsSticky (s : State) : Host.Outcome State Fault Refusal → Prop
  | .next t => KeepsSticky s t
  | .fault _ | .refused _ => True

/-- Each handler, by its accesses and by the flag it may set (R140). -/
theorem exec_keepsSticky {s : State} (h : s.Inv) (i : Instr) : NextKeepsSticky s (exec i s) := by
  cases i with
  | hlt | rfs | and | orr | not | src | rrc | inp | out | chk => exact KeepsSticky.refl s
  | air => exact setOverflow_keepsSticky _ s
  | sir => exact setUnderflow_keepsSticky _ s
  | trr => exact writeEqual_keepsSticky _ _ s
  | lda _ x ind a => exact (resolve_frame h x ind a).keepsSticky
  | ldr _ x ind a => exact (operandRead_frame h x ind a).keepsSticky
  | str _ x ind a => exact (operandWrite_frame h x ind a _).keepsSticky
  | amr _ x ind a | smr _ x ind a =>
    have read := (operandRead_frame h x ind a).keepsSticky
    exact (read.trans (setOverflow_keepsSticky _ _)).trans (setUnderflow_keepsSticky _ _)
  | jz _ x ind a | jne _ x ind a | jcc _ x ind a | jge _ x ind a | jma x ind a =>
    exact jumpIf_keepsSticky (resolve_frame h x ind a).keepsSticky _ _
  | sob _ x ind a | jsr x ind a =>
    exact jumpIf_keepsSticky (setGpr_keepsSticky (resolve_frame h x ind a).keepsSticky _ _) _ _
  | trap code => exact takeTrap_keepsSticky h code
  | ldx x ind a =>
    cases x with
    | noIndex => trivial
    | x1 | x2 | x3 => exact (operandRead_frame h _ ind a).keepsSticky
  | stx x ind a =>
    cases x with
    | noIndex => trivial
    | x1 | x2 | x3 => exact (operandWrite_frame h _ ind a _).keepsSticky
  | mlt rx ry =>
    rw [exec, execMlt]
    split
    · refine KeepsSticky.trans ?_ (setMltOverflow_keepsSticky _ _)
      exact setGpr_keepsSticky (setGpr_keepsSticky (.refl s) _ _) _ _
    · trivial
  | dvd rx ry =>
    rw [exec, execDvd]
    split
    · dsimp only
      split
      · exact setDivideByZero_keepsSticky s
      · exact KeepsSticky.refl s
    · trivial

/-- A step is the fetch, then a handler or the flag IOP (R130, R216). -/
theorem stepWith_keepsSticky {s t : State} (opc : OpcodeMap) (h : s.Inv) (ht : stepWith opc s = .next t) :
    KeepsSticky s t := by
  refine (fetch_keepsSticky h).trans ?_
  obtain ⟨i, -, hstep⟩ | ⟨-, hstep⟩ := stepWith_cases opc h
  · have hexec := exec_keepsSticky (fetch_inv h) i
    rwa [hstep.symm.trans ht] at hexec
  · obtain rfl := Host.Outcome.next.inj (hstep.symm.trans ht)
    exact raiseMfr_keepsSticky _ _

/-- Settles O29: a step keeps the sticky flags by `stepWith_keepsSticky`; an accessor clears the flag it names by
`CondCodes.get_set` and `FaultFlags.get_set`. -/
theorem stepNeverClearsAStickyFlag : Obligations.StepNeverClearsAStickyFlag := by
  unfold Obligations.StepNeverClearsAStickyFlag
  refine ⟨fun opc s t h ht => ?_, fun s f => ?_, fun s f => ?_, fun f => ?_, fun f => ?_⟩
  · obtain ⟨hcc, hmfr⟩ := stepWith_keepsSticky opc h ht
    exact ⟨hcc .ov nofun, hcc .uf nofun, hcc .dz nofun, hmfr⟩
  · exact (CondCodes.get_set s.cc f f false).trans (if_pos rfl)
  · exact (FaultFlags.get_set s.mfr f f false).trans (if_pos rfl)
  · cases f <;> rfl
  · cases f <;> rfl

end Sys2Proof.Machine
end

section
/-! PROOFS. What a handler does, said once for the whole table of R140: its accesses, the error it may end in (R138,
R233), and the registers, flags and memory it may write. -/

namespace Sys2Proof.Machine

/-! ### Reads alone (R62, R63) -/

/-- What accesses that store nothing leave: the invariant, every word that exists, and every register. -/
structure ReadsOnly (s u : State) : Prop where
  frame : AccessFrame s u
  inv : u.Inv
  words : SameWords s u

section Reads
variable {s : State} (h : s.Inv)
include h

theorem ReadsOnly.refl : ReadsOnly s s := ⟨.refl s, h, .refl s⟩

theorem memRead_readsOnly (a : Word) : ReadsOnly s (memRead a s).2 :=
  have r := memRead_spec h a
  ⟨r.frame, r.inv, r.words⟩

theorem resolve_readsOnly (x : IndexSel) (ind : Bool) (a : Nat) : ReadsOnly s (resolve x ind a s).2 :=
  have r := resolve_spec h x ind a
  ⟨r.frame, r.inv, r.words⟩

end Reads

theorem ReadsOnly.trans {s t u : State} (h : ReadsOnly s t) (k : ReadsOnly t u) : ReadsOnly s u :=
  ⟨h.frame.trans k.frame, k.inv, h.words.trans h.frame k.words⟩

section Operands
variable {s : State} (h : s.Inv) (x : IndexSel) (ind : Bool) (a : Nat)
include h

/-- The read of an operand at the effective address, after the resolver's. -/
theorem operandRead_readsOnly : ReadsOnly s (memRead (resolve x ind a s).1 (resolve x ind a s).2).2 :=
  have r := resolve_readsOnly h x ind a
  r.trans (memRead_readsOnly r.inv _)

/-- The store of an operand at the effective address keeps the invariant. -/
theorem operandWrite_inv (v : Word) : (memWrite (resolve x ind a s).1 v (resolve x ind a s).2).Inv :=
  (memWrite_spec (resolve_spec h x ind a).inv _ v).inv

end Operands

/-! ### What an instruction may write (R140) -/

/-- From `u` to `t` no register, flag or pc changes but those the row of `i` names, and nothing of memory and cache. -/
structure WritesOnly (i : Instr) (u t : State) : Prop where
  gpr : ∀ r, r ∉ gprsWritten i → t.x r = u.x r
  ixr : ∀ j, some j ≠ ixrWritten i → t.ixrAt j = u.ixrAt j
  pc : transfers i = false → t.pc = u.pc
  ir : t.ir = u.ir
  ov : i.mnemonic ∉ [Mnemonic.AMR, .SMR, .AIR, .MLT] → t.cc.ov = u.cc.ov
  uf : i.mnemonic ∉ [Mnemonic.AMR, .SMR, .SIR] → t.cc.uf = u.cc.uf
  dz : i.mnemonic ≠ .DVD → t.cc.dz = u.cc.dz
  eq : i.mnemonic ≠ .TRR → t.cc.eq = u.cc.eq
  mfr : t.mfr = u.mfr
  mem : t.mem = u.mem
  lines : t.lines = u.lines
  lru : t.lru = u.lru

namespace WritesOnly
variable {i : Instr} {u t : State}

theorem refl (i : Instr) (u : State) : WritesOnly i u u := by constructor <;> intros <;> rfl

variable (h : WritesOnly i u t)
include h

theorem setGpr {r : Gpr} (hr : r ∈ gprsWritten i) (v : Word) : WritesOnly i u (t.setGpr r v) :=
  { h with
    gpr := fun q hq =>
      have hne : q ≠ r := fun e => hq (e ▸ hr)
      (State.setGpr_x ..).trans ((if_neg hne).trans (h.gpr q hq)) }

theorem setIxr {j : Ixr} (hj : ixrWritten i = some j) (v : Word) : WritesOnly i u (t.setIxr j v) :=
  { h with
    ixr := fun k hk =>
      have hne : k ≠ j := fun e => hk (e ▸ hj.symm)
      (State.setIxr_ixrAt ..).trans ((if_neg hne).trans (h.ixr k hk)) }

theorem setPc (hi : transfers i = true) (p : BitVec 12) : WritesOnly i u (t.setPc p) :=
  { h with pc := fun hn => absurd (hi.symm.trans hn) nofun }

theorem jumpIf (hi : transfers i = true) (c : Bool) (ea : Word) : WritesOnly i u (jumpIf c ea t) := by
  cases c
  · exact h
  · exact h.setPc hi _

theorem setOverflow (hi : i.mnemonic ∈ [Mnemonic.AMR, .SMR, .AIR, .MLT]) (n : Int) :
    WritesOnly i u (setOverflow n t) :=
  { h with ov := fun hn => absurd hi hn }

theorem setUnderflow (hi : i.mnemonic ∈ [Mnemonic.AMR, .SMR, .SIR]) (n : Int) : WritesOnly i u (setUnderflow n t) :=
  { h with uf := fun hn => absurd hi hn }

theorem setMltOverflow (hi : i.mnemonic ∈ [Mnemonic.AMR, .SMR, .AIR, .MLT]) (w : Word) :
    WritesOnly i u (setMltOverflow w t) :=
  { h with ov := fun hn => absurd hi hn }

theorem setDivideByZero (hi : i.mnemonic = .DVD) : WritesOnly i u (setDivideByZero t) :=
  { h with dz := fun hn => absurd hi hn }

theorem writeEqual (hi : i.mnemonic = .TRR) (a b : Word) : WritesOnly i u (writeEqual a b t) :=
  { h with eq := fun hn => absurd hi hn }

/-- The model's own fields are no row's to name (assumption log 10 to 12). -/
theorem ownFields (n : Nat) (es : List OutEvent) (p : StepReport) :
    WritesOnly i u { t with draws := n, events := es, report := p } :=
  { h with }

end WritesOnly

/-! ### The register pair of MLT and DVD (R191) -/

/-- The pair check passes, or one of the two registers has no second register. -/
theorem pairSecond_cases (rx ry : Gpr) : (∃ second other, pairSecond rx = some second ∧ pairSecond ry = some other)
    ∨ (pairSecond rx = none ∨ pairSecond ry = none) := by
  cases pairSecond rx <;> cases pairSecond ry <;> simp

theorem endsInError_mlt (rx ry : Gpr) :
    endsInError (.mlt rx ry) = !((pairSecond rx).isSome && (pairSecond ry).isSome) := by
  cases rx <;> cases ry <;> rfl

theorem endsInError_dvd (rx ry : Gpr) :
    endsInError (.dvd rx ry) = !((pairSecond rx).isSome && (pairSecond ry).isSome) := by
  cases rx <;> cases ry <;> rfl

section Pair
variable {rx ry second other : Gpr} (s : State)

theorem exec_mlt (hx : pairSecond rx = some second) (hy : pairSecond ry = some other) : exec (.mlt rx ry) s
    = .next (setMltOverflow ((product (s.x rx) (s.x ry)).extractLsb' 16 16)
        ((s.setGpr rx ((product (s.x rx) (s.x ry)).extractLsb' 16 16)).setGpr second
          ((product (s.x rx) (s.x ry)).extractLsb' 0 16))) := by
  simp only [exec, execMlt, hx, hy]

theorem exec_dvd_zero (hx : pairSecond rx = some second) (hy : pairSecond ry = some other) (h0 : s16 (s.x ry) = 0) :
    exec (.dvd rx ry) s = .next (setDivideByZero s) := by
  simp only [exec, execDvd, hx, hy, if_pos h0]

theorem exec_dvd (hx : pairSecond rx = some second) (hy : pairSecond ry = some other) (h0 : s16 (s.x ry) ≠ 0) :
    exec (.dvd rx ry) s = .next ((s.setGpr rx (u16 ((s16 (s.x rx)).tdiv (s16 (s.x ry))))).setGpr second
      (u16 (s16 (s.x rx) - (s16 (s.x rx)).tdiv (s16 (s.x ry)) * s16 (s.x ry)))) := by
  simp only [exec, execDvd, hx, hy, if_neg h0]

theorem exec_mlt_odd (h : pairSecond rx = none ∨ pairSecond ry = none) :
    exec (.mlt rx ry) s = .fault (.invalidRegisterPair rx ry s) := by
  obtain h | h := h <;> simp [exec, execMlt, raiseInvalidRegisterPair, h]

theorem exec_dvd_odd (h : pairSecond rx = none ∨ pairSecond ry = none) :
    exec (.dvd rx ry) s = .fault (.invalidRegisterPair rx ry s) := by
  obtain h | h := h <;> simp [exec, execDvd, raiseInvalidRegisterPair, h]

end Pair

/-! ### The handlers -/

/-- What a handler answers: it completes, by accesses to `u` and then writes its row names, and then it is none of the
instructions that end in an error; or it ends in an error and has only read. -/
inductive HandlerOutcome (i : Instr) (s : State) : Host.Outcome State Fault Refusal → Prop
  | next {u t : State} (noError : endsInError i = false) (frame : AccessFrame s u) (inv : u.Inv)
      (words : stores i = false → SameWords s u) (writes : WritesOnly i u t) : HandlerOutcome i s (.next t)
  | fault {f : Fault} (error : endsInError i = true) (reads : ReadsOnly s f.left) : HandlerOutcome i s (.fault f)

/-- A handler that completes and only reads. -/
theorem HandlerOutcome.ofReads {i : Instr} {s u t : State} (noError : endsInError i = false) (reads : ReadsOnly s u)
    (writes : WritesOnly i u t) : HandlerOutcome i s (.next t) :=
  .next noError reads.frame reads.inv (fun _ => reads.words) writes

section Outcomes
variable {s : State} (h : s.Inv)
include h

/-- A TRAP completes after a store and two reads, and writes pc (R214). -/
theorem exec_trap_outcome (code : Nat) : HandlerOutcome (.trap code) s (exec (.trap code) s) := by
  have saved := memWrite_spec h trapReturnAddr (zextPc s.pc)
  have table := memRead_readsOnly saved.inv trapTablePtr
  have entry (a : Word) := table.trans (memRead_readsOnly table.inv a)
  exact .next rfl (saved.frame.trans (entry _).frame) (entry _).inv nofun ((WritesOnly.refl ..).setPc rfl _)

theorem exec_mlt_outcome (rx ry : Gpr) : HandlerOutcome (.mlt rx ry) s (exec (.mlt rx ry) s) := by
  obtain ⟨second, other, hx, hy⟩ | hodd := pairSecond_cases rx ry
  · rw [exec_mlt s hx hy]
    refine .ofReads (by simp [endsInError_mlt, hx, hy]) (.refl h) ?_
    refine (((WritesOnly.refl ..).setGpr ?_ _).setGpr ?_ _).setMltOverflow (by simp [Instr.mnemonic]) _
    · exact List.mem_cons_self
    · simp [gprsWritten, hx]
  · rw [exec_mlt_odd s hodd]
    exact .fault (by obtain h | h := hodd <;> simp [endsInError_mlt, h]) (.refl h)

theorem exec_dvd_outcome (rx ry : Gpr) : HandlerOutcome (.dvd rx ry) s (exec (.dvd rx ry) s) := by
  obtain ⟨second, other, hx, hy⟩ | hodd := pairSecond_cases rx ry
  · have noError : endsInError (.dvd rx ry) = false := by simp [endsInError_dvd, hx, hy]
    by_cases h0 : s16 (s.x ry) = 0
    · rw [exec_dvd_zero s hx hy h0]
      exact .ofReads noError (.refl h) ((WritesOnly.refl ..).setDivideByZero rfl)
    · rw [exec_dvd s hx hy h0]
      refine .ofReads noError (.refl h) (((WritesOnly.refl ..).setGpr ?_ _).setGpr ?_ _)
      · exact List.mem_cons_self
      · simp [gprsWritten, hx]
  · rw [exec_dvd_odd s hodd]
    exact .fault (by obtain h | h := hodd <;> simp [endsInError_dvd, h]) (.refl h)

/-- Each handler, by its accesses and then by its writes. -/
theorem exec_outcome (i : Instr) : HandlerOutcome i s (exec i s) := by
  have own {j : Instr} {u : State} : WritesOnly j u u := .refl j u
  cases i with
  | hlt | out => exact .ofReads rfl (.refl h) (own.ownFields _ _ _)
  | inp | chk => exact .ofReads rfl (.refl h) ((own.ownFields _ _ _).setGpr List.mem_cons_self _)
  | and | orr | not | src | rrc => exact .ofReads rfl (.refl h) (own.setGpr List.mem_cons_self _)
  | air => exact .ofReads rfl (.refl h) ((own.setOverflow (by simp [Instr.mnemonic]) _).setGpr List.mem_cons_self _)
  | sir => exact .ofReads rfl (.refl h) ((own.setUnderflow (by simp [Instr.mnemonic]) _).setGpr List.mem_cons_self _)
  | trr => exact .ofReads rfl (.refl h) (own.writeEqual rfl _ _)
  | rfs => exact .ofReads rfl (.refl h) ((own.setGpr List.mem_cons_self _).setPc rfl _)
  | lda _ x ind a => exact .ofReads rfl (resolve_readsOnly h x ind a) (own.setGpr List.mem_cons_self _)
  | ldr _ x ind a => exact .ofReads rfl (operandRead_readsOnly h x ind a) (own.setGpr List.mem_cons_self _)
  | amr _ x ind a | smr _ x ind a =>
    exact .ofReads rfl (operandRead_readsOnly h x ind a)
      (((own.setOverflow (by simp [Instr.mnemonic]) _).setUnderflow (by simp [Instr.mnemonic]) _).setGpr
        List.mem_cons_self _)
  | str _ x ind a => exact .next rfl (operandWrite_frame h x ind a _) (operandWrite_inv h x ind a _) nofun own
  | jz _ x ind a | jne _ x ind a | jcc _ x ind a | jge _ x ind a | jma x ind a =>
    exact .ofReads rfl (resolve_readsOnly h x ind a) (own.jumpIf rfl _ _)
  | sob _ x ind a | jsr x ind a =>
    exact .ofReads rfl (resolve_readsOnly h x ind a) ((own.setGpr List.mem_cons_self _).jumpIf rfl _ _)
  | trap code => exact exec_trap_outcome h code
  | mlt rx ry => exact exec_mlt_outcome h rx ry
  | dvd rx ry => exact exec_dvd_outcome h rx ry
  | ldx x ind a =>
    cases x with
    | noIndex => exact .fault rfl (resolve_readsOnly h _ ind a)
    | x1 | x2 | x3 => exact .ofReads rfl (operandRead_readsOnly h _ ind a) (own.setIxr rfl _)
  | stx x ind a =>
    cases x with
    | noIndex => exact .fault rfl (resolve_readsOnly h _ ind a)
    | x1 | x2 | x3 => exact .next rfl (operandWrite_frame h _ ind a _) (operandWrite_inv h _ ind a _) nofun own

end Outcomes

end Sys2Proof.Machine
end

section
/-! PROOFS. R31, R61, R140: what every instruction and every step keeps, from the one account of the handlers in
`exec_outcome`. -/

namespace Sys2Proof.Machine

/-! ### The table of R140 -/

section Exec
variable {i : Instr} {s t : State} (h : s.Inv) (ht : exec i s = .next t)
include h ht

/-- A handler that completes is its accesses and then its writes. -/
theorem exec_next : ∃ u, endsInError i = false ∧ AccessFrame s u ∧ u.Inv ∧ (stores i = false → SameWords s u)
    ∧ WritesOnly i u t := by
  cases ht ▸ exec_outcome h i with
  | next noError frame inv words writes => exact ⟨_, noError, frame, inv, words, writes⟩

theorem exec_inv : t.Inv := by
  obtain ⟨u, -, -, inv, -, w⟩ := exec_next h ht
  exact inv.congr w.mem w.lines w.lru

end Exec

/-- An instruction that ends in an error has only read (R138). -/
theorem exec_fault {i : Instr} {s : State} {f : Fault} (h : s.Inv) (hf : exec i s = .fault f) :
    endsInError i = true ∧ ReadsOnly s f.left := by
  cases hf ▸ exec_outcome h i with
  | fault error reads => exact ⟨error, reads⟩

/-- Settles O32: the accesses of a handler leave the registers, and its writes are those of `WritesOnly`. -/
theorem registersWrittenAreThoseOfTheTable : Obligations.RegistersWrittenAreThoseOfTheTable := by
  unfold Obligations.RegistersWrittenAreThoseOfTheTable
  intro i s t h ht
  obtain ⟨u, -, f, -, -, w⟩ := exec_next h ht
  refine ⟨fun r hr => (w.gpr r hr).trans (f.x r), fun j hj => (w.ixr j hj).trans (f.ixrAt j),
    fun hi => (w.pc hi).trans f.pc, w.ir.trans f.ir, ?_⟩
  rw [w.mfr, w.mem, w.lines]
  exact ⟨f.iop, f.itr, f.rsv, f.memWords, f.cacheLines⟩

/-- Settles O33: the accesses of a handler leave the condition codes, and `WritesOnly` names who writes each. -/
theorem flagsAreWrittenOnlyByTheirInstructions : Obligations.FlagsAreWrittenOnlyByTheirInstructions := by
  unfold Obligations.FlagsAreWrittenOnlyByTheirInstructions
  intro i s t h ht
  obtain ⟨u, -, f, -, -, w⟩ := exec_next h ht
  rw [← f.cc]
  exact ⟨w.ov, w.uf, w.dz, w.eq⟩

/-- Settles O34: a handler that does not store has only read, and its writes are to no word. -/
theorem onlyStoresChangeMemory : Obligations.OnlyStoresChangeMemory := by
  unfold Obligations.OnlyStoresChangeMemory
  intro i s t h ht hs
  obtain ⟨u, -, -, -, words, w⟩ := exec_next h ht
  exact (words hs).congr w.mem w.lines

/-! ### The formats that make no access (R135) -/

/-- Memory, cache and fault flags are those of the state before, if the handler completes. -/
def NextKeepsMemory (s : State) : Host.Outcome State Fault Refusal → Prop
  | .next t => t.mem = s.mem ∧ t.lines = s.lines ∧ t.lru = s.lru ∧ t.mfr = s.mfr
  | .fault _ | .refused _ => True

theorem exec_keepsMemory (s : State) {i : Instr} (hi : i.mnemonic.format ∉ [Format.MR, .XR, .TRAP]) :
    NextKeepsMemory s (exec i s) := by
  cases i with
  | ldr | str | lda | amr | smr | jz | jne | jcc | sob | jge | jma | jsr | ldx | stx | trap =>
    simp [Instr.mnemonic, Mnemonic.format] at hi
  | hlt | air | sir | rfs | trr | and | orr | not | src | rrc | inp | out | chk => exact ⟨rfl, rfl, rfl, rfl⟩
  | mlt rx ry =>
    obtain ⟨second, other, hx, hy⟩ | hodd := pairSecond_cases rx ry
    · rw [exec_mlt s hx hy]; exact ⟨rfl, rfl, rfl, rfl⟩
    · rw [exec_mlt_odd s hodd]; trivial
  | dvd rx ry =>
    obtain ⟨second, other, hx, hy⟩ | hodd := pairSecond_cases rx ry
    · by_cases h0 : s16 (s.x ry) = 0
      · rw [exec_dvd_zero s hx hy h0]; exact ⟨rfl, rfl, rfl, rfl⟩
      · rw [exec_dvd s hx hy h0]; exact ⟨rfl, rfl, rfl, rfl⟩
    · rw [exec_dvd_odd s hodd]; trivial

/-- Settles O35: format by format, the handlers that do not resolve an address write registers, flags and the model's
own fields. -/
theorem otherFormatsMakeNoAccess : Obligations.OtherFormatsMakeNoAccess := by
  unfold Obligations.OtherFormatsMakeNoAccess
  intro i s t hi ht
  have hkeeps := exec_keepsMemory s hi
  rwa [ht] at hkeeps

/-! ### The step -/

/-- The fetch, with the word it loads (R130 to R132). -/
theorem fetch_eq {s : State} (h : s.Inv) : fetch s
    = { (memRead (zextPc s.pc) s).2 with ir := s.view (zextPc s.pc), pc := s.pc + 1, report := .continues } := by
  rw [fetch, (memRead_spec h (zextPc s.pc)).value]

/-- A step whose word decodes is the handler after the fetch (R130, R133). -/
theorem stepWith_of_decode {opc : OpcodeMap} {s : State} {i : Instr} (h : s.Inv)
    (hd : decodeWith opc (s.view (zextPc s.pc)) = .ok i) : stepWith opc s = exec i (fetch s) := by
  rw [stepWith, (fetch_fields h).ir, hd]

/-- A step whose word does not decode sets IOP after the fetch (R216). -/
theorem stepWith_of_reject {opc : OpcodeMap} {s : State} {e : DecodeReject} (h : s.Inv)
    (hd : decodeWith opc (s.view (zextPc s.pc)) = .error e) : stepWith opc s = .next ((fetch s).raiseMfr .iop) := by
  rw [stepWith, (fetch_fields h).ir, hd]
  rfl

/-- A step that ends without an error keeps the invariant: the fetch does by `fetch_inv`, the handler by `exec_inv`. -/
theorem stepWith_inv {opc : OpcodeMap} {s t : State} (h : s.Inv) (ht : stepWith opc s = .next t) : t.Inv := by
  obtain ⟨i, -, hstep⟩ | ⟨-, hstep⟩ := stepWith_cases opc h
  · exact exec_inv (fetch_inv h) (hstep.symm.trans ht)
  · obtain rfl := Host.Outcome.next.inj (hstep.symm.trans ht)
    exact (fetch_inv h).congr rfl rfl rfl

/-- Settles O28, by `stepWith_inv` for every map. -/
theorem stepKeepsTheInvariant : Obligations.StepKeepsTheInvariant := by
  unfold Obligations.StepKeepsTheInvariant
  exact ⟨fun _ _ h ht => stepWith_inv h ht, fun _ _ _ h ht => stepWith_inv h ht⟩

/-- Settles O23: `stepWith_of_decode` with the fetch written out by `fetch_eq`. -/
theorem stepRunsTheDecodedInstruction : Obligations.StepRunsTheDecodedInstruction := by
  unfold Obligations.StepRunsTheDecodedInstruction
  exact ⟨fun _ _ _ h hd => fetch_eq h ▸ stepWith_of_decode h hd, fun _ _ h hd => fetch_eq h ▸ stepWith_of_decode h hd⟩

/-- Settles O24: `stepWith_of_reject`, and what the fetch leaves by `fetch_fields`. -/
theorem illegalOpcodeSetsIopAndContinues : Obligations.IllegalOpcodeSetsIopAndContinues := by
  unfold Obligations.IllegalOpcodeSetsIopAndContinues
  intro opc s op h hd
  have f := fetch_fields h
  exact ⟨_, stepWith_of_reject h hd, rfl, rfl, f.pc, f.ir, f.report, f.words.congr rfl rfl, f.gpr, f.ixr, f.cc, rfl,
    f.itr, f.rsv, f.draws, f.events, f.memWords, f.cacheLines⟩

/-! ### Errors (R138, R233) -/

section Errors
variable {opc : OpcodeMap} {s : State} (h : s.Inv)
include h

/-- A step that ends in an error has fetched and then only read. -/
theorem stepWith_fault {f : Fault} (hf : stepWith opc s = .fault f) :
    (∃ i, decodeWith opc (s.view (zextPc s.pc)) = .ok i ∧ endsInError i = true) ∧ ReadsOnly (fetch s) f.left := by
  obtain ⟨i, hd, hstep⟩ | ⟨-, hstep⟩ := stepWith_cases opc h
  · obtain ⟨error, reads⟩ := exec_fault (fetch_inv h) (hstep.symm.trans hf)
    exact ⟨⟨i, hd, error⟩, reads⟩
  · exact absurd (hstep.symm.trans hf) nofun

/-- The three checks of R233 end the step in an error. -/
theorem stepWith_fault_of_endsInError {i : Instr} (hd : decodeWith opc (s.view (zextPc s.pc)) = .ok i)
    (hi : endsInError i = true) : ∃ f, stepWith opc s = .fault f := by
  have hexec := exec_outcome (fetch_inv h) i
  rw [← stepWith_of_decode h hd] at hexec
  cases hstep : stepWith opc s with
  | fault f => exact ⟨f, rfl⟩
  | next t =>
    rw [hstep] at hexec
    cases hexec with
    | next noError => exact absurd (hi.symm.trans noError) nofun
  | refused r =>
    rw [hstep] at hexec
    nomatch hexec

theorem stepWith_ne_refused (r : Refusal) : stepWith opc s ≠ .refused r := by
  intro hr
  obtain ⟨i, -, hstep⟩ | ⟨-, hstep⟩ := stepWith_cases opc h
  · have hexec := exec_outcome (fetch_inv h) i
    rw [← hstep, hr] at hexec
    nomatch hexec
  · exact absurd (hstep.symm.trans hr) nofun

end Errors

/-- Settles O27: which instructions end in an error is `exec_outcome`; the state left is the fetch's, by `fetch_fields`,
and then reads alone. -/
theorem errorsAreTheThreeChecksAndWriteNothing : Obligations.ErrorsAreTheThreeChecksAndWriteNothing := by
  unfold Obligations.ErrorsAreTheThreeChecksAndWriteNothing
  intro opc s h
  refine ⟨⟨fun ⟨_, hf⟩ => (stepWith_fault h hf).1, fun ⟨_, hd, hi⟩ => stepWith_fault_of_endsInError h hd hi⟩,
    stepWith_ne_refused h, fun f hf => ?_⟩
  obtain ⟨-, ⟨frame, inv, words⟩⟩ := stepWith_fault h hf
  have fe := fetch_fields h
  refine ⟨frame.gpr.trans fe.gpr, frame.ixr.trans fe.ixr, frame.cc.trans fe.cc, fun a ha => ?_, frame.ir.trans fe.ir,
    frame.pc.trans fe.pc, inv, frame.iop.trans fe.iop, frame.itr.trans fe.itr, frame.rsv.trans fe.rsv,
    fun ho => frame.oobSticky (fe.oobSticky ho), frame.draws.trans fe.draws, frame.events.trans fe.events⟩
  have hin : (fetch s).inBounds a = true := by rwa [State.inBounds, fe.memWords]
  exact (words a hin).trans (fe.words a ha)

/-! ### The report (R8, R213) -/

/-- With a legal map, HLT is what the words with opcode 0 decode to, and no other word does (R5, D2). -/
theorem decodeWith_eq_hlt_iff {opc : OpcodeMap} (hopc : opc.Legal) {w : Word} {i : Instr}
    (hd : decodeWith opc w = .ok i) : i = .hlt ↔ opcodeField w = 0 := by
  obtain ⟨m, hm, hok⟩ | ⟨-, herr⟩ := decodeWith_cases opc w
  · obtain rfl : operandsOf m w = i := Except.ok.inj (hok.symm.trans hd)
    rw [← hm]
    constructor
    · intro hi
      have hmn : m = .HLT := by rw [← operandsOf_mnemonic m w, hi]; rfl
      exact hmn ▸ hopc.2
    · intro h0
      rw [hopc.1 m .HLT (h0.trans hopc.2.symm)]
      rfl
  · exact absurd (herr.symm.trans hd) nofun

/-- Settles O26: the fetch clears the report, HLT alone sets it by `exec_report`, and HLT is opcode 0 by
`decodeWith_eq_hlt_iff`. -/
theorem stepReportsHaltExactlyForHlt : Obligations.StepReportsHaltExactlyForHlt := by
  unfold Obligations.StepReportsHaltExactlyForHlt
  intro opc s t hopc h ht
  have fe := fetch_fields h
  obtain ⟨i, hd, hstep⟩ | ⟨⟨e, hd⟩, hstep⟩ := stepWith_cases opc h
  · rw [← decodeWith_eq_hlt_iff hopc hd]
    have hexec := hstep.symm.trans ht
    by_cases hi : i = .hlt
    · subst hi
      obtain rfl := Host.Outcome.next.inj hexec
      exact iff_of_true rfl rfl
    · have hr := (exec_report (fetch_inv h) hexec hi).trans fe.report
      exact iff_of_false (fun e => absurd (hr.symm.trans e) nofun) hi
  · obtain rfl := Host.Outcome.next.inj (hstep.symm.trans ht)
    refine iff_of_false (fun e => absurd (fe.report.symm.trans e) nofun) fun h0 => ?_
    rw [decodeWith_of_opcode hopc (h0.trans hopc.2.symm)] at hd
    nomatch hd

end Sys2Proof.Machine
end

section
/-! PROOFS. R102 to R104: what the decoder yields, what it rejects, and the bits it ignores. -/

namespace Sys2Proof

/-! ### Operands fit their fields (R104) -/

theorem addressField_fits (w : Word) : fitsUnsigned (addressField w) 5 = true := decide_eq_true (BitVec.isLt _)

theorem countField_fits (w : Word) : fitsUnsigned (countField w) 4 = true := decide_eq_true (BitVec.isLt _)

theorem operandsOf_wellFormed (m : Mnemonic) (w : Word) : (operandsOf m w).wellFormed = true := by
  cases m with
  | HLT | MLT | DVD | TRR | AND | ORR | NOT => rfl
  | TRAP | SRC | RRC => exact countField_fits w
  | LDR | STR | LDA | AMR | SMR | AIR | SIR | JZ | JNE | JCC | JMA | JSR | RFS | SOB | JGE | LDX | STX | IN | OUT | CHK =>
    exact addressField_fits w

/-- What decodes is the operands of the mnemonic the map finds for the word's opcode (R102). -/
theorem decodeWith_eq_ok_iff {opc : OpcodeMap} {w : Word} {i : Instr} :
    decodeWith opc w = .ok i ↔ ∃ m, mnemonicIn opc (opcodeField w) = some m ∧ operandsOf m w = i := by
  rw [decodeWith]
  cases mnemonicIn opc (opcodeField w) <;> simp

/-- Settles O2: the operands of a word fit by `operandsOf_wellFormed`, and the mnemonic has its opcode. -/
theorem decodedInstructionsAreWellFormed : Obligations.DecodedInstructionsAreWellFormed := by
  unfold Obligations.DecodedInstructionsAreWellFormed
  intro opc w i h
  obtain ⟨m, hm, rfl⟩ := decodeWith_eq_ok_iff.mp h
  exact ⟨operandsOf_wellFormed m w, (operandsOf_mnemonic m w).symm ▸ mnemonicIn_some hm⟩

/-! ### Illegal opcodes (R103) -/

theorem decodeWith_eq_error_iff (opc : OpcodeMap) (w : Word) :
    decodeWith opc w = .error (.illegalOpcode (opcodeField w)) ↔ ∀ m, opc m ≠ opcodeField w := by
  obtain ⟨m, hm, hok⟩ | ⟨hnone, herr⟩ := decodeWith_cases opc w
  · exact iff_of_false (fun e => absurd (hok.symm.trans e) nofun) fun h => h m hm
  · exact iff_of_true herr hnone

/-- The opcodes the default map of R101 leaves out, in octal. -/
theorem mnemonicIn_default_none (op : BitVec 6) : mnemonicIn Mnemonic.opc op = none ↔
    (op.toNat = 0o26 ∨ op.toNat = 0o27 ∨ (0o33 ≤ op.toNat ∧ op.toNat ≤ 0o40)
      ∨ (0o43 ≤ op.toNat ∧ op.toNat ≤ 0o60) ∨ (0o64 ≤ op.toNat ∧ op.toNat ≤ 0o77)) := by
  revert op; decide

/-- Settles O3: `decodeWith_eq_error_iff` for every map, and the 64 opcodes of the default map in
`mnemonicIn_default_none`. -/
theorem illegalOpcodesAreTheUnmappedOnes : Obligations.IllegalOpcodesAreTheUnmappedOnes := by
  unfold Obligations.IllegalOpcodesAreTheUnmappedOnes
  refine ⟨decodeWith_eq_error_iff, defaultMap_legal, fun w => ?_⟩
  rw [decode, decodeWith_eq_error_iff, ← mnemonicIn_none, mnemonicIn_default_none]

/-! ### Unused bits (R102, D3) -/

/-- No format leaves a bit of the opcode unused. -/
theorem opcodeField_clear (m : Mnemonic) (w : Word) : opcodeField (w &&& ~~~m.unusedMask) = opcodeField w := by
  have hmask : ∀ k < 6, m.unusedMask.getLsbD (10 + k) = false := by cases m <;> decide
  apply extract_ext
  intro k hk
  have hk16 : 10 + k < 16 := by omega
  rw [BitVec.getLsbD_and, BitVec.getLsbD_not, hmask k hk, opcodeField, BitVec.getLsbD_extractLsb']
  simp [hk, hk16]

/-- The operands of a mnemonic are read from the bits its format uses: the canonical word of the operands, in which the
unused bits are 0, has them again. -/
theorem operandsOf_clear (m : Mnemonic) (w : Word) : operandsOf m (w &&& ~~~m.unusedMask) = operandsOf m w := by
  by_cases hm : m = .HLT
  · subst hm; rfl
  · have hopc : (Function.update (fun _ => opcodeField w) Mnemonic.HLT 0 : OpcodeMap) m = opcodeField w :=
      Function.update_of_ne hm ..
    rw [← encodeWith_operandsOf (Function.update_self ..) hopc]
    have hround := operandsOf_encodeWith (Function.update (fun _ => opcodeField w) Mnemonic.HLT 0)
      (operandsOf_wellFormed m w)
    rwa [operandsOf_mnemonic] at hround

/-- Settles O4: words that agree outside the unused bits have one opcode by `opcodeField_clear`, so one mnemonic, and
then the same operands by `operandsOf_clear`. -/
theorem unusedBitsAreIgnored : Obligations.UnusedBitsAreIgnored := by
  unfold Obligations.UnusedBitsAreIgnored
  intro opc w w' i h hclear
  obtain ⟨m, hm, rfl⟩ := decodeWith_eq_ok_iff.mp h
  rw [operandsOf_mnemonic] at hclear
  refine decodeWith_eq_ok_iff.mpr ⟨m, ?_, ?_⟩
  · rw [← opcodeField_clear m w', ← hclear, opcodeField_clear, hm]
  · rw [← operandsOf_clear, ← hclear, operandsOf_clear]

/-- Settles O7, each word by evaluation. -/
theorem wordsOfEveryFormatDecode : Obligations.WordsOfEveryFormatDecode := by
  unfold Obligations.WordsOfEveryFormatDecode
  decide

end Sys2Proof
end

section
/-! PROOFS. R27, R36: the host's accessors name a register by its storage index, and mask what they write. -/

namespace Sys2Proof.Machine

/-- The storage index of a general register. -/
def gprIndex : Gpr → Int
  | .r0 => 0 | .r1 => 1 | .r2 => 2 | .r3 => 3

/-- The storage index of an index register. -/
def ixrIndex : Ixr → Int
  | .i0 => 0 | .i1 => 1 | .i2 => 2

theorem gprAtIndex_of_outOfRange {i : Int} (h : i < 0 ∨ 3 < i) : gprAtIndex i = none := by
  rw [gprAtIndex, if_neg (by omega), if_neg (by omega), if_neg (by omega), if_neg (by omega)]

theorem ixrAtIndex_of_outOfRange {j : Int} (h : j < 0 ∨ 2 < j) : ixrAtIndex j = none := by
  rw [ixrAtIndex, if_neg (by omega), if_neg (by omega), if_neg (by omega)]

theorem exists_gprIndex {i : Int} (h0 : 0 ≤ i) (h3 : i ≤ 3) : ∃ r, i = gprIndex r := by
  interval_cases i
  exacts [⟨.r0, rfl⟩, ⟨.r1, rfl⟩, ⟨.r2, rfl⟩, ⟨.r3, rfl⟩]

theorem exists_ixrIndex {j : Int} (h0 : 0 ≤ j) (h2 : j ≤ 2) : ∃ x, j = ixrIndex x := by
  interval_cases j
  exacts [⟨.i0, rfl⟩, ⟨.i1, rfl⟩, ⟨.i2, rfl⟩]

@[simp] theorem rfReadGpr_gprIndex (r : Gpr) (s : State) : rfReadGpr (gprIndex r) s = .ok (s.x r) := by cases r <;> rfl

@[simp] theorem rfWriteGpr_gprIndex (r : Gpr) (v : Int) (s : State) :
    rfWriteGpr (gprIndex r) v s = .ok (s.setGpr r (u16 v)) := by cases r <;> rfl

@[simp] theorem rfReadIxr_ixrIndex (x : Ixr) (s : State) : rfReadIxr (ixrIndex x) s = .ok (s.ixrAt x) := by
  cases x <;> rfl

@[simp] theorem rfWriteIxr_ixrIndex (x : Ixr) (v : Int) (s : State) :
    rfWriteIxr (ixrIndex x) v s = .ok (s.setIxr x (u16 v)) := by cases x <;> rfl

/-- An integer is stored modulo the width of its register (R6, R27). -/
theorem toNat_ofInt_eq_emod (n : Nat) (v : Int) : ((BitVec.ofInt n v).toNat : Int) = v % 2 ^ n := by
  rw [BitVec.toNat_ofInt, Int.toNat_of_nonneg (Int.emod_nonneg v (by positivity))]
  norm_cast

/-- A write of a general register is read back, and the other registers read as before. -/
theorem rfReadGpr_setGpr (s : State) (r : Gpr) (w : Word) : rfReadGpr (gprIndex r) (s.setGpr r w) = .ok w
    ∧ ∀ k : Int, k ≠ gprIndex r → 0 ≤ k → k ≤ 3 → rfReadGpr k (s.setGpr r w) = rfReadGpr k s := by
  refine ⟨by simp, fun k hk h0 h3 => ?_⟩
  obtain ⟨q, rfl⟩ := exists_gprIndex h0 h3
  have hq : q ≠ r := fun e => hk (e ▸ rfl)
  simp [State.setGpr_x, hq]

/-- A write of an index register is read back, and the other registers read as before. -/
theorem rfReadIxr_setIxr (s : State) (x : Ixr) (w : Word) : rfReadIxr (ixrIndex x) (s.setIxr x w) = .ok w
    ∧ ∀ k : Int, k ≠ ixrIndex x → 0 ≤ k → k ≤ 2 → rfReadIxr k (s.setIxr x w) = rfReadIxr k s := by
  refine ⟨by simp, fun k hk h0 h2 => ?_⟩
  obtain ⟨y, rfl⟩ := exists_ixrIndex h0 h2
  have hy : y ≠ x := fun e => hk (e ▸ rfl)
  simp [State.setIxr_ixrAt, hy]

/-- Settles O8: an index names the register `gprIndex` or `ixrIndex` gives it to or none, what is written is the value
modulo the width, and reads after a write are those of `get_set`. -/
theorem registerFileChecksAndMasks : Obligations.RegisterFileChecksAndMasks := by
  unfold Obligations.RegisterFileChecksAndMasks
  refine ⟨fun s => ⟨rfl, rfl, rfl, rfl, rfl, rfl, rfl, rfl⟩, fun s i v h => ?_, fun s j v h => ?_,
    fun s i v h0 h3 => ?_, fun s j v h0 h2 => ?_, fun s v => ⟨toNat_ofInt_eq_emod 12 v, rfl⟩,
    fun s f b => ⟨rfl, fun g => CondCodes.get_set s.cc f g b⟩,
    fun s f b => ⟨rfl, fun g => FaultFlags.get_set s.mfr f g b⟩⟩
  · simp [rfReadGpr, rfWriteGpr, gprAtIndex_of_outOfRange h]
  · simp [rfReadIxr, rfWriteIxr, ixrAtIndex_of_outOfRange h]
  · obtain ⟨r, rfl⟩ := exists_gprIndex h0 h3
    exact ⟨r, u16 v, toNat_ofInt_eq_emod 16 v, rfWriteGpr_gprIndex r v s, rfReadGpr_setGpr s r (u16 v)⟩
  · obtain ⟨x, rfl⟩ := exists_ixrIndex h0 h2
    exact ⟨x, u16 v, toNat_ofInt_eq_emod 16 v, rfWriteIxr_ixrIndex x v s, rfReadIxr_setIxr s x (u16 v)⟩

end Sys2Proof.Machine
end

section
/-! PROOFS. R34, R260 to R266: reset, loading and launching. -/

namespace Sys2Proof.Machine

/-! ### Reset (R34, R260) -/

/-- With no valid line, the cache invariants hold of themselves (R61). -/
theorem State.inv_of_noValid {s : State} (memWf : s.mem.wf = true) (hasLine : s.lines ≠ [])
    (lruPerm : s.lru.Perm (List.range s.lines.length)) (h : ∀ i, (s.line i).valid = false) : s.Inv where
  memWf := memWf
  hasLine := hasLine
  lruPerm := lruPerm
  tagsUnique := fun i _ _ _ hi => absurd hi (by simp [h i])
  emptyFirst := List.pairwise_of_forall fun i _ hi => absurd hi (by simp [h i])
  cleanCoherent := fun i _ hi => absurd hi (by simp [h i])

/-- With no valid line, `View` is the memory array (R73). -/
theorem State.view_of_noValid {s : State} (h : ∀ i, (s.line i).valid = false) (a : Word) :
    s.view a = s.arrayWord a.toNat :=
  State.view_absent fun i _ hi => absurd hi (by simp [h i])

theorem resetOf_line_valid (memWords cacheLines i : Nat) :
    ((State.resetOf memWords cacheLines).line i).valid = false := by
  simp only [State.line, State.resetOf, List.getD_eq_getElem?_getD, List.getElem?_replicate]
  split <;> rfl

/-- Every word of memory is 0 after reset (D40). -/
theorem resetOf_word (memWords cacheLines a : Nat) : (State.resetOf memWords cacheLines).mem.word a = 0 := by
  simp [State.resetOf, Memory.word, Memory.byte, readCells, Memory.unlisted]

/-- Settles O9: every field by evaluation; `View` is the empty memory array, for no line is valid. -/
theorem resetLeavesTheListedValues : Obligations.ResetLeavesTheListedValues := by
  unfold Obligations.ResetLeavesTheListedValues
  intro memWords cacheLines
  refine ⟨fun r => ?_, fun j => ?_, rfl, rfl, fun f => ?_, fun f => ?_, fun a => ?_,
    List.length_replicate .., resetOf_line_valid _ _, rfl, rfl, rfl, rfl⟩
  · cases r <;> rfl
  · cases j <;> rfl
  · cases f <;> rfl
  · cases f <;> rfl
  · rw [State.view_of_noValid (resetOf_line_valid _ _), State.arrayWord, resetOf_word]
    rfl

theorem resetOf_inv {memWords cacheLines : Nat} (h1 : 1 ≤ memWords) (h2 : memWords ≤ 65536) (h3 : 1 ≤ cacheLines) :
    (State.resetOf memWords cacheLines).Inv := by
  refine State.inv_of_noValid ((Memory.wf_iff _).mpr ⟨h1, h2, rfl⟩) (fun e => ?_) ?_ (resetOf_line_valid _ _)
  · obtain rfl : cacheLines = 0 := List.replicate_eq_nil_iff _ |>.mp e
    omega
  · simp [State.resetOf]

/-- Settles O10, by `resetOf_inv`. -/
theorem resetMeetsTheInvariant : Obligations.ResetMeetsTheInvariant := by
  unfold Obligations.ResetMeetsTheInvariant
  exact ⟨resetOf_inv (by decide) (by decide) (by decide), fun _ _ => resetOf_inv⟩

/-! ### Loading (R262, R266) -/

/-- Settles O12: the one test of `load`. -/
theorem loadIsRefusedAfterExecution : Obligations.LoadIsRefusedAfterExecution := by
  unfold Obligations.LoadIsRefusedAfterExecution
  intro image s
  rw [← List.any_eq_true, load]
  split
  · next hv => exact iff_of_true rfl hv
  · next hv => exact iff_of_false nofun hv

/-- The word an image gives an address, the last of the pairs that name it, if one does (R262). -/
def imageWord (image : List (Nat × Word)) (a : Nat) : Option Word :=
  (image.filter (fun p => p.1 = a)).getLast?.map Prod.snd

theorem imageWord_cons (p : Nat × Word) (image : List (Nat × Word)) (a : Nat) :
    imageWord (p :: image) a = if p.1 = a then some ((imageWord image a).getD p.2) else imageWord image a := by
  by_cases h : p.1 = a <;> simp [imageWord, h, List.getLast?_cons]

/-- One write to the memory array (R52). -/
theorem arrayWrite_spec {s : State} (h : s.mem.wf = true) (a : Nat) (v : Word) :
    ∃ m, arrayWrite a v s = s.withArray m (oobUnless (decide (a < s.mem.size)) s.mfr) ∧ m.size = s.mem.size
      ∧ m.wf = true ∧ ∀ b < s.mem.size, m.word b = if a = b then v else s.mem.word b := by
  refine ⟨_, arrayWrite_eq a v s, ?_⟩
  by_cases ha : a < s.mem.size
  · rw [if_pos ha]
    refine ⟨rfl, Memory.wf_setWord h ha v, fun b _ => ?_⟩
    simp only [Memory.word_setWord h ha, eq_comm]
  · rw [if_neg ha]
    exact ⟨rfl, h, fun b hb => (if_neg (by omega)).symm⟩

/-- The pairs of an image go to the memory array one by one, and OOB tells if one of them names no word (R52, R262). -/
theorem load_fold (image : List (Nat × Word)) {s : State} (h : s.mem.wf = true) :
    ∃ m, image.foldl (fun s p => arrayWrite p.1 p.2 s) s
        = s.withArray m (oobUnless (image.all fun p => decide (p.1 < s.mem.size)) s.mfr)
      ∧ m.size = s.mem.size ∧ m.wf = true
      ∧ ∀ a < s.mem.size, m.word a = (imageWord image a).getD (s.mem.word a) := by
  induction image generalizing s with
  | nil => exact ⟨s.mem, rfl, rfl, h, fun _ _ => rfl⟩
  | cons p image ih =>
    obtain ⟨m₁, he₁, hs₁, hwf₁, hword₁⟩ := arrayWrite_spec h p.1 p.2
    obtain ⟨m, he, hs, hwf, hword⟩ :=
      ih (s := s.withArray m₁ (oobUnless (decide (p.1 < s.mem.size)) s.mfr)) hwf₁
    refine ⟨m, ?_, hs.trans hs₁, hwf, fun a ha => ?_⟩
    · rw [List.foldl_cons, he₁, he]
      simp only [State.withArray, hs₁, oobUnless_oobUnless, List.all_cons]
    · have hrest : m.word a = (imageWord image a).getD (m₁.word a) := hword a (hs₁.symm ▸ ha)
      rw [hrest, hword₁ a ha, imageWord_cons]
      split
      · next e => simp
      · rfl

/-! ### Launching (R263) -/

/-- Settles O11: the image goes to memory by `load_fold`, from the reset state, whose words are 0; and with no valid line
the memory array is what `View` reads. -/
theorem launchInstallsTheImage : Obligations.LaunchInstallsTheImage := by
  unfold Obligations.LaunchInstallsTheImage
  intro memWords cacheLines image entry h1 h2 h3
  have hreset := resetOf_inv h1 h2 h3
  have hvalid := resetOf_line_valid memWords cacheLines
  obtain ⟨m, he, hs, hwf, hword⟩ := load_fold image hreset.memWf
  have hempty : ¬ (State.resetOf memWords cacheLines).lines.any (fun l => l.valid) = true := by
    simp [State.resetOf, Line.empty]
  refine ⟨_, by rw [launch, load, if_neg hempty, he], ?_, toNat_ofInt_eq_emod 12 entry, fun a ha => ?_, ?_, fun r => ?_,
    fun j => ?_, fun f => ?_, ?_⟩
  · exact State.inv_of_noValid hwf hreset.hasLine hreset.lruPerm hvalid
  · refine Eq.trans (State.view_of_noValid ?_ a) ?_
    · exact hvalid
    · refine (if_pos (hs.symm ▸ ha)).trans ((hword a.toNat ha).trans ?_)
      rw [resetOf_word]
      rfl
  · show (oobUnless _ _).oob = true ↔ _
    rw [oobUnless_oob]
    show (false || !image.all fun p => decide (p.1 < memWords)) = true ↔ _
    simp only [Bool.false_or, Bool.not_eq_true', List.all_eq_false, decide_eq_true_iff, not_lt]
  · cases r <;> rfl
  · cases j <;> rfl
  · cases f <;> rfl
  · intro l hl
    rw [List.eq_of_mem_replicate hl]
    rfl

end Sys2Proof.Machine
end

section
/-! PROOFS. R54 to R64: what one access does to the cache and to memory, beside `memRead_spec` and `memWrite_spec`. -/

namespace Sys2Proof.Machine

/-! ### One word changes, or none (R58, R63) -/

/-- Settles O13: a read is `memRead_spec`, and a hit is a touch. -/
theorem readDeliversTheView : Obligations.ReadDeliversTheView := by
  unfold Obligations.ReadDeliversTheView
  intro s a h
  have r := memRead_spec h a
  refine ⟨r.value, r.frame, r.words, r.here, r.inv, fun hhit => ?_⟩
  obtain ⟨i, hi⟩ := Option.isSome_iff_exists.mp hhit
  rw [memRead_hit hi]
  rfl

/-- Settles O14: a write is `memWrite_spec`. -/
theorem writeChangesOneWord : Obligations.WriteChangesOneWord := by
  unfold Obligations.WriteChangesOneWord
  intro s a v h
  have w := memWrite_spec h a v
  exact ⟨w.here, w.frame, w.inv, w.words⟩

/-! ### The lines and the fault flags after an access (R56 to R59) -/

/-- What an access leaves of the cache, whether it reads or writes: the line `i` that the lookup names, or else the
victim, holds the block and is last in LRU, and no other line has changed. -/
structure AccessOf (a : Word) (s t : State) (i : Nat) : Prop where
  frame : AccessFrame s t
  inv : t.Inv
  lt : i < s.lines.length
  which : s.lookup (tagOf a) = some i ∨ s.lookup (tagOf a) = none ∧ i = s.victim
  lookup : t.lookup (tagOf a) = some i
  lru : t.lru = s.lru.erase i ++ [i]
  others : ∀ j, j ≠ i → t.line j = s.line j
  hit : (s.lookup (tagOf a)).isSome = true → t.mfr = s.mfr ∧ t.mem = s.mem
  miss : s.lookup (tagOf a) = none → t.mfr = oobUnless (s.evictionFits && s.blockInBounds (tagOf a)) s.mfr
  noOob : s.NoOobLine → s.blockInBounds (tagOf a) = true → t.NoOobLine

/-- A read changes no line but the one of its block. -/
theorem memRead_line_of_ne {s : State} (h : s.Inv) {a : Word} {i j : Nat}
    (hi : s.lookup (tagOf a) = some i ∨ s.lookup (tagOf a) = none ∧ i = s.victim) (hj : j ≠ i) :
    (memRead a s).2.line j = s.line j := by
  obtain hhit | ⟨hmiss, rfl⟩ := hi
  · rw [memRead_hit hhit, touch_line]
  · rw [memRead_miss hmiss]
    exact (miss_spec h hmiss).others j hj

theorem memRead_mem_of_hit {s : State} {a : Word} (hhit : (s.lookup (tagOf a)).isSome = true) :
    (memRead a s).2.mem = s.mem := by
  obtain ⟨i, hi⟩ := Option.isSome_iff_exists.mp hhit
  rw [memRead_hit hi, touch_mem]

namespace AccessLine
variable {s : State} (h : s.Inv) {a v : Word} {i : Nat} (l : AccessLine a v s (memRead a s).2 (memWrite a v s) i)
include h l

theorem read : AccessOf a s (memRead a s).2 i :=
  have r := memRead_spec h a
  { frame := r.frame
    inv := r.inv
    lt := l.lt
    which := l.which
    lookup := State.lookup_of r.inv.tagsUnique (r.frame.cacheLines ▸ l.lt) l.valid l.tagEq
    lru := l.readLru
    others := fun _ hj => memRead_line_of_ne h l.which hj
    hit := fun hhit => ⟨r.hit hhit, memRead_mem_of_hit hhit⟩
    miss := r.miss
    noOob := r.noOob }

theorem write : AccessOf a s (memWrite a v s) i :=
  have w := memWrite_spec h a v
  { frame := w.frame
    inv := w.inv
    lt := l.lt
    which := l.which
    lookup := State.lookup_of w.inv.tagsUnique (w.frame.cacheLines ▸ l.lt) (by rw [l.written]) (by rw [l.written])
    lru := l.writeLru
    others := fun j hj => (l.others j hj).trans (memRead_line_of_ne h l.which hj)
    hit := fun hhit => ⟨w.hit hhit, l.mem.trans (memRead_mem_of_hit hhit)⟩
    miss := w.miss
    noOob := w.noOob }

end AccessLine

section Access
variable {s : State} (h : s.Inv) (a v : Word)
include h

/-- The read and the write of one address do the same to the cache, but for the written word and its dirty bit. -/
theorem accessOf_both : ∃ i, AccessOf a s (memRead a s).2 i ∧ AccessOf a s (memWrite a v s) i
    ∧ AccessLine a v s (memRead a s).2 (memWrite a v s) i := by
  obtain ⟨i, l⟩ := accessLine_spec h a v
  exact ⟨i, l.read h, l.write h, l⟩

/-- The same of either, for what does not tell a read from a write. -/
theorem accessOf_of {t : State} (ht : t = (memRead a s).2 ∨ t = memWrite a v s) : ∃ i, AccessOf a s t i := by
  obtain ⟨i, r, w, -⟩ := accessOf_both h a v
  obtain rfl | rfl := ht
  · exact ⟨i, r⟩
  · exact ⟨i, w⟩

end Access

section AccessOf
variable {a : Word} {s t : State} {i : Nat} (c : AccessOf a s t i)
include c

theorem AccessOf.eq_of_hit {k : Nat} (hk : s.lookup (tagOf a) = some k) : i = k := by
  obtain hi | ⟨hn, -⟩ := c.which
  · exact Option.some.inj (hi.symm.trans hk)
  · exact absurd (hn.symm.trans hk) nofun

theorem AccessOf.eq_victim (hmiss : s.lookup (tagOf a) = none) : i = s.victim := by
  obtain hi | ⟨-, hv⟩ := c.which
  · exact absurd (hi.symm.trans hmiss) nofun
  · exact hv

/-- After a miss the block of the victim is no longer resident. -/
theorem AccessOf.lookup_evicted (h : s.Inv) (hmiss : s.lookup (tagOf a) = none)
    (hv : (s.line s.victim).valid = true) : t.lookup (s.line s.victim).tag = none := by
  obtain rfl := c.eq_victim hmiss
  cases hl : t.lookup (s.line s.victim).tag with
  | none => rfl
  | some j =>
    obtain ⟨hj, hjv, hjt⟩ := State.lookup_some hl
    obtain ⟨-, -, hit⟩ := State.lookup_some c.lookup
    by_cases hji : j = s.victim
    · subst hji
      exact absurd (hjt.symm.trans hit) (State.lookup_none hmiss c.lt hv)
    · rw [c.others j hji] at hjv hjt
      exact absurd (h.tagsUnique j (c.frame.cacheLines ▸ hj) _ c.lt hjv hv hjt) hji

end AccessOf

/-- Settles O15: the line is that of `accessOf_both`, where the write keeps its word by `memWrite_mem_word_self`; a miss
reaches memory only by writing back its victim. -/
theorem writeIsHeldInTheCache : Obligations.WriteIsHeldInTheCache := by
  unfold Obligations.WriteIsHeldInTheCache
  intro s a v h
  obtain ⟨i, -, w, l⟩ := accessOf_both h a v
  refine ⟨i, w.lookup, ?_, ?_, ?_, w.others, memWrite_mem_word_self h a v, fun hhit => ?_, fun hmiss => ?_⟩
  · rw [l.written]
  · simp only [l.written, Block.get_set, if_pos]
  · rw [w.lru, List.getLast?_concat]
  · obtain ⟨k, hk⟩ := Option.isSome_iff_exists.mp hhit
    exact ⟨w.eq_of_hit hk ▸ hk, (w.hit hhit).2⟩
  · refine ⟨w.eq_victim hmiss, ?_⟩
    rw [access_mem_of_miss hmiss (.inr rfl)]
    exact (miss_spec h hmiss).memOut

/-- Settles O16: the flags are those of the hit and of the miss in `AccessOf`; an evicted block is not resident, so its
words out of bounds read as the sentinel. -/
theorem outOfBoundsAccessSetsTheFlagOnAMiss : Obligations.OutOfBoundsAccessSetsTheFlagOnAMiss := by
  unfold Obligations.OutOfBoundsAccessSetsTheFlagOnAMiss
  intro s a v h
  refine ⟨fun t ht => ?_, fun hmiss hout => (memRead_spec h a).value.trans (State.view_eq_oobSentinel hmiss hout)⟩
  obtain ⟨i, c⟩ := accessOf_of h a v ht
  refine ⟨fun hhit => (c.hit hhit).1, fun hmiss hblock => ?_, fun hmiss hv hd hblock => ?_, fun hmiss hblock hfits => ?_,
    fun hmiss hv b hb hout => ?_⟩
  · rw [c.miss hmiss, hblock, Bool.and_false]
    rfl
  · have hfits : s.evictionFits = false := by simp [State.evictionFits, hv, hd, hblock]
    rw [c.miss hmiss, hfits, Bool.false_and]
    rfl
  · rw [c.miss hmiss, hblock, hfits]
    rfl
  · exact State.view_eq_oobSentinel (hb ▸ c.lookup_evicted h hmiss hv) ((c.frame.inBounds b).trans hout)

/-- An access in a block that exists sets no flag while every resident block exists (R64). -/
theorem AccessOf.mfr_of_noOobLine {a : Word} {s t : State} {i : Nat} (c : AccessOf a s t i) (h : s.Inv)
    (hn : s.NoOobLine) (hb : s.blockInBounds (tagOf a) = true) : t.mfr = s.mfr := by
  cases hl : s.lookup (tagOf a) with
  | some k => exact (c.hit (hl ▸ rfl)).1
  | none => rw [c.miss hl, hn.evictionFits h, hb]; rfl

/-- Settles O17: the flags by `AccessOf.mfr_of_noOobLine`, the lines by `AccessOf.noOob`. -/
theorem inBoundsAccessSetsNoFlag : Obligations.InBoundsAccessSetsNoFlag := by
  unfold Obligations.InBoundsAccessSetsNoFlag
  intro s a v h hn hb
  obtain ⟨i, r, w, -⟩ := accessOf_both h a v
  exact ⟨r.mfr_of_noOobLine h hn hb, r.noOob hn hb, w.mfr_of_noOobLine h hn hb, w.noOob hn hb⟩

/-- Settles O18: the line of `accessOf_both` is the victim; the line a read filled is clean, so by the invariant it holds
its block of the memory array. -/
theorem missReplacesOnlyTheLruHead : Obligations.MissReplacesOnlyTheLruHead := by
  unfold Obligations.MissReplacesOnlyTheLruHead
  intro s a v h hmiss
  obtain ⟨rest, hlru, -⟩ := h.lru_eq
  obtain ⟨i, r, -, l⟩ := accessOf_both h a v
  obtain rfl := r.eq_victim hmiss
  have hclean : ((memRead a s).2.line s.victim).dirty = false := by
    rw [memRead_miss hmiss]
    exact (miss_spec h hmiss).clean
  have hblock (o : Fin 8) : ((memRead a s).2.line s.victim).block.get o
      = (memRead a s).2.arrayWord (blockAddr (tagOf a) o) := by
    rw [r.inv.cleanCoherent _ (r.frame.cacheLines ▸ l.lt) l.valid hclean o, l.tagEq]
  refine ⟨by rw [hlru]; rfl, fun t ht => ?_, hclean, hblock, by rw [l.written], fun o => ?_⟩
  · obtain ⟨j, c⟩ := accessOf_of h a v ht
    obtain rfl := c.eq_victim hmiss
    exact ⟨c.lookup, by rw [c.lru, h.lru_erase_victim], c.others⟩
  · simp only [l.written, Block.get_set, hblock, State.arrayWord, l.mem]

/-- While a line is empty the victim is empty, for it is the first in LRU (R61 (b)). -/
theorem State.Inv.victim_empty {s : State} (h : s.Inv) {i : Nat} (hi : i < s.lines.length)
    (hv : (s.line i).valid = false) : (s.line s.victim).valid = false := by
  obtain ⟨rest, hlru, -⟩ := h.lru_eq
  have hfirst := h.emptyFirst
  rw [State.EmptyFirst, hlru, List.pairwise_cons] at hfirst
  obtain ⟨hfirst, -⟩ := hfirst
  have hmem : i ∈ s.victim :: rest := hlru ▸ h.mem_lru.mpr hi
  obtain rfl | hrest := List.mem_cons.mp hmem
  · exact hv
  · by_contra hvictim
    have hvalid := hfirst i hrest (by simpa using hvictim)
    simp [hv] at hvalid

/-- While the victim is empty, an access leaves the memory array (R57, R61 (b)). -/
theorem access_mem_of_victim_empty {s t : State} (h : s.Inv) {a v : Word} (hv : (s.line s.victim).valid = false)
    (ht : t = (memRead a s).2 ∨ t = memWrite a v s) : t.mem = s.mem := by
  cases hl : s.lookup (tagOf a) with
  | some k =>
    obtain ⟨i, c⟩ := accessOf_of h a v ht
    exact (c.hit (hl ▸ rfl)).2
  | none => exact (access_mem_of_miss hl ht).trans ((miss_spec h hl).memSame (by simp [hv]))

/-- Settles O20: the victim is empty by `State.Inv.victim_empty`, so nothing is written back, and the only line that
changes is the victim or the one that is hit. -/
theorem noEvictionWhileALineIsEmpty : Obligations.NoEvictionWhileALineIsEmpty := by
  unfold Obligations.NoEvictionWhileALineIsEmpty
  rintro s a v h ⟨k, hk, hkv⟩
  have hvictim := h.victim_empty hk hkv
  obtain ⟨i, r, w, -⟩ := accessOf_both h a v
  have hempty (j : Nat) (hj : (s.line j).valid = true) : j ≠ s.victim := by rintro rfl; simp [hvictim] at hj
  refine ⟨access_mem_of_victim_empty h (v := v) hvictim (.inl rfl), access_mem_of_victim_empty h hvictim (.inr rfl),
    fun j _ hjv => ?_, fun j _ hjv hjt => w.others j ?_⟩
  · obtain hhit | ⟨-, rfl⟩ := r.which
    · rw [memRead_hit hhit, touch_line]
    · exact r.others j (hempty j hjv)
  · obtain hhit | ⟨-, rfl⟩ := w.which
    · obtain ⟨-, -, ht⟩ := State.lookup_some hhit
      rintro rfl
      exact hjt ht
    · exact hempty j hjv

/-- Settles O21: the line and the order are those of `accessOf_both`. -/
theorem everyAccessMovesItsLineToTheTail : Obligations.EveryAccessMovesItsLineToTheTail := by
  unfold Obligations.EveryAccessMovesItsLineToTheTail
  intro s a v h
  obtain ⟨i, r, w, -⟩ := accessOf_both h a v
  exact ⟨⟨i, r.lookup, r.lru⟩, ⟨i, w.lookup, w.lru⟩⟩

end Sys2Proof.Machine
end

section
/-! PROOFS. R72, log 14: what the next fetch loads, after a store and after a word was placed for it. -/

namespace Sys2Proof.Machine

/-- Settles O30: the store is in `View` by `memWrite_spec`, and `View` is what the fetch loads. -/
theorem storeIsSeenByTheNextFetch : Obligations.StoreIsSeenByTheNextFetch := by
  unfold Obligations.StoreIsSeenByTheNextFetch
  intro s t r x i a h ht hpc
  have w := memWrite_spec (resolve_spec h x i a).inv (effAddr x i a s) (s.x r)
  obtain rfl := Host.Outcome.next.inj ((exec_str h r x i a).symm.trans ht)
  rw [(fetch_fields w.inv).ir, ← hpc, w.here]

theorem zextPc_toNat (p : BitVec 12) : (zextPc p).toNat = p.toNat := by
  rw [zextPc, BitVec.toNat_setWidth]
  omega

theorem State.pc_lt_of_inBounds {s : State} (hb : s.inBounds (zextPc s.pc) = true) : s.pc.toNat < s.mem.size :=
  zextPc_toNat s.pc ▸ of_decide_eq_true hb

/-- A word is placed whole (log 14). -/
theorem withFetchWord_eq (s : State) (w : Word) : s.withFetchWord 16 w.toNat = placeAtPc w s := by
  rw [State.withFetchWord, Nat.mod_eq_of_lt w.isLt, BitVec.ofNat_toNat, BitVec.setWidth_eq]

/-- With the block of pc resident, a word is placed as a store puts it into the line. -/
theorem placeAtPc_hit {s : State} {i : Nat} (hi : s.lookup (tagOf (zextPc s.pc)) = some i) (w : Word) :
    placeAtPc w s = storeInLine i (offsetOf (zextPc s.pc)) w s := by
  rw [placeAtPc, hi]
  rfl

/-- With the block of pc not resident, a word is placed in the memory array. -/
theorem placeAtPc_miss {s : State} (hn : s.lookup (tagOf (zextPc s.pc)) = none)
    (hb : s.inBounds (zextPc s.pc) = true) (w : Word) :
    placeAtPc w s = s.withArray (s.mem.setWord s.pc.toNat w) s.mfr := by
  rw [placeAtPc, hn]
  exact if_pos (State.pc_lt_of_inBounds hb)

theorem State.view_of_hit {s : State} {a : Word} {i : Nat} (h : s.lookup (tagOf a) = some i) :
    s.view a = (s.line i).block.get (offsetOf a) := by
  rw [State.view, h]

theorem State.view_of_miss {s : State} {a : Word} (h : s.lookup (tagOf a) = none) :
    s.view a = s.arrayWord a.toNat := by
  rw [State.view, h]

/-- Writing the memory array at an address whose block is not resident keeps the invariant, and `View` takes the word
there. -/
theorem setWord_absent {s : State} (h : s.Inv) {a : Word} (hn : s.lookup (tagOf a) = none)
    (hb : s.inBounds a = true) (w : Word) :
    (s.withArray (s.mem.setWord a.toNat w) s.mfr).Inv
      ∧ ∀ b, (s.withArray (s.mem.setWord a.toNat w) s.mfr).view b = if b = a then w else s.view b := by
  have hlt : a.toNat < s.mem.size := of_decide_eq_true hb
  have harr (k : Nat) : (s.withArray (s.mem.setWord a.toNat w) s.mfr).arrayWord k
      = if k = a.toNat then w else s.arrayWord k := by
    by_cases hk : k = a.toNat <;> simp [State.arrayWord, State.withArray, Memory.word_setWord h.memWf hlt, hk, hlt]
  refine ⟨⟨Memory.wf_setWord h.memWf hlt w, h.hasLine, h.lruPerm, h.tagsUnique, h.emptyFirst, ?_⟩, fun b => ?_⟩
  · intro i hi hv hd o
    have hne : blockAddr (s.line i).tag o ≠ a.toNat := fun e =>
      State.lookup_none hn hi hv (blockAddr_inj (e.trans (blockAddr_tagOf a).symm)).1
    exact (h.cleanCoherent i hi hv hd o).trans ((harr _).trans (if_neg hne)).symm
  · cases hl : s.lookup (tagOf b) with
    | some i =>
      have hba : b ≠ a := by rintro rfl; exact absurd (hn.symm.trans hl) nofun
      rw [if_neg hba, State.view_of_hit hl]
      exact State.view_of_hit hl
    | none =>
      refine Eq.trans (State.view_of_miss ?_) ((harr b.toNat).trans ?_)
      · exact hl
      · simp only [State.view_of_miss hl, BitVec.toNat_inj]

/-- What placing a word keeps and changes, wherever it goes. -/
structure PlaceSpec (w : Word) (s t : State) : Prop where
  inv : t.Inv
  frame : AccessFrame s t
  mfr : t.mfr = s.mfr
  lru : t.lru = s.lru
  view : ∀ b, t.view b = if b = zextPc s.pc then w else s.view b
  others : ∀ j, s.lookup (tagOf (zextPc s.pc)) ≠ some j → t.line j = s.line j
  mem : ∀ k, k ≠ s.pc.toNat → t.mem.word k = s.mem.word k

theorem placeAtPc_spec {s : State} (h : s.Inv) (hb : s.inBounds (zextPc s.pc) = true) (w : Word) :
    PlaceSpec w s (placeAtPc w s) := by
  cases hl : s.lookup (tagOf (zextPc s.pc)) with
  | some i =>
    obtain ⟨hi, hv, ht⟩ := State.lookup_some hl
    rw [placeAtPc_hit hl]
    obtain ⟨hinv, hview, -, -⟩ := storeInLine_spec h hi hv ht w
    refine ⟨hinv, storeInLine_frame .., rfl, rfl, hview, fun j hj => ?_, fun _ _ => rfl⟩
    rw [storeInLine_line hi, if_neg]
    rintro rfl
    exact hj hl
  | none =>
    obtain ⟨hinv, hview⟩ := setWord_absent h hl hb w
    rw [zextPc_toNat] at hinv hview
    rw [placeAtPc_miss hl hb]
    refine ⟨hinv, ?_, rfl, rfl, hview, fun _ _ => rfl, fun k hk => ?_⟩
    · exact { AccessFrame.refl s with }
    · exact (Memory.word_setWord h.memWf (State.pc_lt_of_inBounds hb) w k).trans (if_neg hk)

/-- Settles O31: `placeAtPc_spec`, and where the word went by `placeAtPc_hit` and `placeAtPc_miss`. -/
theorem placedWordIsFetched : Obligations.PlacedWordIsFetched := by
  unfold Obligations.PlacedWordIsFetched
  intro s w h hb
  have p := placeAtPc_spec h hb w
  rw [withFetchWord_eq]
  refine ⟨?_, p.inv, p.frame, p.mfr, p.lru, fun b _ hne => (p.view b).trans (if_neg hne), p.others, fun i hi => ?_,
    fun hn => ?_, p.mem⟩
  · rw [(fetch_fields p.inv).ir, p.frame.pc, p.view, if_pos rfl]
  · obtain ⟨hlt, -, -⟩ := State.lookup_some hi
    rw [placeAtPc_hit hi]
    exact ⟨rfl, (storeInLine_line hlt _ _ i).trans (if_pos rfl)⟩
  · rw [placeAtPc_miss hn hb]
    exact (Memory.word_setWord h.memWf (State.pc_lt_of_inBounds hb) w _).trans (if_pos rfl)

end Sys2Proof.Machine
end

section
/-! PROOFS. R134 to R136, R152 to R154, R162 to R166, R214: the resolver's modes, the handlers that resolve an address,
and TRAP. -/

namespace Sys2Proof.Machine

/-! ### The four modes (R134, R136) -/

/-- With a selector that names a register, the address is the field plus that register, modulo 65536. -/
theorem indexedAddr_of_selected {x : IndexSel} {j : Ixr} (hj : selectedIxr x = some j) (a : Nat) (s : State) :
    indexedAddr x a s = BitVec.ofNat 16 (a + (s.ixrAt j).toNat) := by
  rw [BitVec.ofNat_add, BitVec.ofNat_toNat, BitVec.setWidth_eq]
  simp only [indexedAddr, hj, zextField]

/-- Settles O22: `resolve_spec`, and the address before indirection by `indexedAddr_of_selected`. -/
theorem resolverGivesTheFourModes : Obligations.ResolverGivesTheFourModes := by
  unfold Obligations.ResolverGivesTheFourModes
  intro s a h
  have x1 : indexedAddr .x1 a s = BitVec.ofNat 16 (a + s.ixr.i0.toNat) := indexedAddr_of_selected (j := .i0) rfl a s
  have x2 : indexedAddr .x2 a s = BitVec.ofNat 16 (a + s.ixr.i1.toNat) := indexedAddr_of_selected (j := .i1) rfl a s
  have x3 : indexedAddr .x3 a s = BitVec.ofNat 16 (a + s.ixr.i2.toNat) := indexedAddr_of_selected (j := .i2) rfl a s
  refine ⟨fun x i => ?_, rfl, x1, x2, x3, rfl, congrArg s.view x1, congrArg s.view x2, congrArg s.view x3⟩
  have p := resolve_spec h x i a
  exact ⟨p.ea, p.frame, p.words, p.inv, p.direct⟩

/-! ### LDA, LDX and STX (R152 to R154) -/

section Handlers
variable {s : State} (h : s.Inv) (r : Gpr) (x : IndexSel) (i : Bool) (a : Nat)
include h

/-- LDA writes the address into the register file as it was. -/
theorem exec_lda : exec (.lda r x i a) s
    = .next { (resolve x i a s).2 with gpr := s.gpr.set r (effAddr x i a s) } := by
  have p := resolve_spec h x i a
  simp only [exec, execLda, State.setGpr, p.ea, p.frame.gpr]

/-- LDX writes the word the read delivers into the index register file as it was. -/
theorem exec_ldx {j : Ixr} (hj : selectedIxr x = some j) : exec (.ldx x i a) s
    = .next { (memRead (effAddr x i a s) (resolve x i a s).2).2 with
        ixr := s.ixr.set j ((resolve x i a s).2.view (effAddr x i a s)) } := by
  have p := resolve_spec h x i a
  have m := memRead_spec p.inv (effAddr x i a s)
  simp only [exec, execLdx, hj, State.setIxr, p.ea, m.value, (p.frame.trans m.frame).ixr]

/-- STX stores the index register as it was. -/
theorem exec_stx {j : Ixr} (hj : selectedIxr x = some j) : exec (.stx x i a) s
    = .next (memWrite (effAddr x i a s) (s.ixrAt j) (resolve x i a s).2) := by
  have p := resolve_spec h x i a
  simp only [exec, execStx, hj, p.ea, p.frame.ixrAt]

end Handlers

/-- Settles O38: LDA is `exec_lda`; what the pointer read leaves is `resolve_spec`. -/
theorem ldaLoadsTheAddress : Obligations.LdaLoadsTheAddress := by
  unfold Obligations.LdaLoadsTheAddress
  intro s r x i a h
  have p := resolve_spec h x i a
  exact ⟨_, exec_lda h r x i a, rfl, p.frame, p.words, p.direct⟩

/-- Settles O39: LDX is `exec_ldx`, one read by `memRead_spec` after the resolver's by `resolve_spec`. -/
theorem ldxLoadsTheIndexRegister : Obligations.LdxLoadsTheIndexRegister := by
  unfold Obligations.LdxLoadsTheIndexRegister
  intro s x j i a h hj
  have p := resolve_spec h x i a
  have m := memRead_spec p.inv (effAddr x i a s)
  exact ⟨_, _, exec_ldx h x i a hj, rfl, p.words _, indexedAddr_of_selected hj a s, rfl, p.frame.trans m.frame,
    p.words.trans p.frame m.words⟩

/-- Settles O40: STX is `exec_stx`, one write by `memWrite_spec` after the resolver's read by `resolve_spec`. -/
theorem stxStoresTheIndexRegister : Obligations.StxStoresTheIndexRegister := by
  unfold Obligations.StxStoresTheIndexRegister
  intro s x j i a h hj
  have p := resolve_spec h x i a
  have w := memWrite_spec p.inv (effAddr x i a s) (s.ixrAt j)
  exact ⟨_, exec_stx h x i a hj, rfl, w.here, p.frame.trans w.frame, indexedAddr_of_selected hj a s,
    fun b hb hne => (w.words b ((p.frame.inBounds b).trans hb) hne).trans (p.words b hb)⟩

/-- Settles O41: with selector 0 both handlers raise the error in the state `resolve_spec` tells of. -/
theorem selectorZeroIsAnError : Obligations.SelectorZeroIsAnError := by
  unfold Obligations.SelectorZeroIsAnError
  intro s i a h
  have p := resolve_spec h .noIndex i a
  exact ⟨_, rfl, rfl, rfl, p.frame, p.words, p.direct⟩

/-! ### JCC, JSR, RFS and SOB (R162 to R166) -/

section Jumps
variable {s : State} (h : s.Inv) (x : IndexSel) (i : Bool) (a : Nat)
include h

/-- JCC tests the flag it names, as it was. -/
theorem exec_jcc (c : CcFlag) : exec (.jcc c x i a) s
    = .next { (resolve x i a s).2 with pc := if s.cc.get c then (effAddr x i a s).setWidth 12 else s.pc } := by
  simp only [exec, execJcc, jumpIf_resolve h, (resolve_frame h x i a).cc]

/-- JSR saves the pc the fetch left. -/
theorem exec_jsr : exec (.jsr x i a) s
    = .next { (resolve x i a s).2 with
        gpr := { s.gpr with r3 := zextPc s.pc }, pc := (effAddr x i a s).setWidth 12 } := by
  have p := resolve_spec h x i a
  simp only [exec, execJsr, jumpIf_eq, p.ea, p.frame.pc, State.setGpr, p.frame.gpr]
  rfl

end Jumps

/-- Settles O43: each selector names the flag `exec_jcc` tests. -/
theorem jccTestsTheSelectedFlag : Obligations.JccTestsTheSelectedFlag := by
  unfold Obligations.JccTestsTheSelectedFlag
  intro s x i a h
  have p := resolve_spec h x i a
  exact ⟨_, exec_jcc h x i a .ov, exec_jcc h x i a .uf, exec_jcc h x i a .dz, exec_jcc h x i a .eq, rfl, p.frame,
    p.words⟩

/-- Settles O45: JSR is `exec_jsr`; what the pointer read leaves is `resolve_spec`. -/
theorem jsrSavesTheReturnAddress : Obligations.JsrSavesTheReturnAddress := by
  unfold Obligations.JsrSavesTheReturnAddress
  intro s x i a h
  have p := resolve_spec h x i a
  exact ⟨_, _, exec_jsr h x i a, zextPc_toNat s.pc, rfl, p.frame, p.words, p.direct⟩

/-- Settles O46: the handler makes no access. -/
theorem rfsReturnsThroughGpr3 : Obligations.RfsReturnsThroughGpr3 := by
  unfold Obligations.RfsReturnsThroughGpr3
  intro s imm
  rfl

/-! ### Words as integers (R6, R180) -/

theorem u16_s16 (v : Word) : u16 (s16 v) = v := BitVec.ofInt_toInt

theorem u16_add (m n : Int) : u16 (m + n) = u16 m + u16 n := BitVec.ofInt_add ..

theorem u16_sub (m n : Int) : u16 (m - n) = u16 m - u16 n :=
  eq_sub_of_add_eq (by rw [← u16_add, sub_add_cancel])

theorem u16_natCast (n : Nat) : u16 n = BitVec.ofNat 16 n := BitVec.ofInt_natCast ..

/-- The decremented word is positive exactly when the word was above 1 or wraps from -32768 (R166, D26). -/
theorem s16_sub_one_pos_iff (v : Word) : 0 < s16 (v - 1) ↔ 1 < v.toInt ∨ v.toInt = -32768 := by
  have hlo : -32768 ≤ v.toInt := BitVec.le_toInt v
  have hhi : v.toInt < 32768 := BitVec.toInt_lt
  rw [s16, BitVec.toInt_sub, show (1 : Word).toInt = 1 from rfl, Int.bmod_def]
  split <;> omega

/-- SOB stores the register less 1 and tests the stored word. -/
theorem exec_sob {s : State} (h : s.Inv) (r : Gpr) (x : IndexSel) (i : Bool) (a : Nat) : exec (.sob r x i a) s
    = .next { (resolve x i a s).2 with
        gpr := s.gpr.set r (s.x r - 1)
        pc := if 1 < (s.x r).toInt ∨ (s.x r).toInt = -32768 then (effAddr x i a s).setWidth 12 else s.pc } := by
  have p := resolve_spec h x i a
  have hdec : u16 (s16 (s.x r) - 1) = s.x r - 1 := by rw [u16_sub, u16_s16]; rfl
  simp only [exec, execSob, jumpIf_eq, p.ea, p.frame.x, hdec, State.setGpr_x_self, decide_eq_true_iff,
    s16_sub_one_pos_iff]
  simp only [State.setGpr, p.frame.gpr, p.frame.pc]

/-- Settles O47: SOB is `exec_sob`; what the pointer read leaves is `resolve_spec`. -/
theorem sobDecrementsAndBranches : Obligations.SobDecrementsAndBranches := by
  unfold Obligations.SobDecrementsAndBranches
  intro s r x i a h
  have p := resolve_spec h x i a
  exact ⟨_, exec_sob h r x i a, rfl, p.frame, p.words⟩

/-! ### TRAP (R214, D31, D44) -/

section Trap
variable {s : State} (h : s.Inv)
include h

/-- Storing the return address leaves word 0, which exists in every memory (R5). -/
theorem trapTable_value : (memRead 0 (memWrite 2 (zextPc s.pc) s)).1 = s.view 0 := by
  have saved := memWrite_spec h 2 (zextPc s.pc)
  obtain ⟨hsize, -, -⟩ := (Memory.wf_iff s.mem).mp h.memWf
  exact (memRead_spec saved.inv 0).value.trans (saved.words 0 (decide_eq_true hsize) (by decide))

/-- TRAP is one store and two reads, and pc takes the low 12 bits of the table entry. -/
theorem exec_trap (code : Nat) : exec (.trap code) s
    = .next { (memRead (s.view 0 + BitVec.ofNat 16 code) (memRead 0 (memWrite 2 (zextPc s.pc) s)).2).2 with
        pc := ((memRead 0 (memWrite 2 (zextPc s.pc) s)).2.view (s.view 0 + BitVec.ofNat 16 code)).setWidth 12 } := by
  have table := memRead_spec (memWrite_spec h 2 (zextPc s.pc)).inv 0
  rw [← (memRead_spec table.inv _).value, ← trapTable_value h]
  rfl

end Trap

/-- Settles O60: TRAP is `exec_trap`; the store and the reads keep every other word by `memWrite_spec` and
`memRead_spec`. -/
theorem trapGoesThroughTheTable : Obligations.TrapGoesThroughTheTable := by
  unfold Obligations.TrapGoesThroughTheTable
  intro s code h
  have saved := memWrite_spec h 2 (zextPc s.pc)
  have table := memRead_readsOnly saved.inv 0
  have entry := table.trans (memRead_readsOnly table.inv (s.view 0 + BitVec.ofNat 16 code))
  have hin {b : Word} (hb : s.inBounds b = true) := (saved.frame.inBounds b).trans hb
  refine ⟨_, _, exec_trap h code, rfl, fun he => ?_, fun h2 => (entry.words 2 (hin h2)).trans saved.here,
    fun b hb hne => (entry.words b (hin hb)).trans (saved.words b hb hne), rfl, saved.frame.trans entry.frame⟩
  rw [table.words _ (hin he)]
  split
  · next e => rw [e, saved.here]
  · next hne => exact saved.words _ he hne

end Sys2Proof.Machine
end

section
/-! PROOFS. R180 to R191: arithmetic and logic, as facts about integers and bits. -/

namespace Sys2Proof.Machine

/-! ### Sums and differences (R181 to R184) -/

section Sums
variable {s : State} (h : s.Inv) (r : Gpr) (x : IndexSel) (i : Bool) (a : Nat)
  {v : Word} (hv : (resolve x i a s).2.view (effAddr x i a s) = v)
include h hv

/-- AMR adds the word `v` the read delivers. -/
theorem exec_amr : exec (.amr r x i a) s = .next { (memRead (effAddr x i a s) (resolve x i a s).2).2 with
    gpr := s.gpr.set r (s.x r + v)
    cc := { s.cc with
      ov := s.cc.ov || decide (32767 < (s.x r).toInt + v.toInt)
      uf := s.cc.uf || decide ((s.x r).toInt + v.toInt < -32768) } } := by
  have p := resolve_spec h x i a
  have m := memRead_spec p.inv (effAddr x i a s)
  have f := p.frame.trans m.frame
  simp only [exec, execAmr, setOverflow, setUnderflow, State.setGpr, p.ea, m.value, hv, f.x, f.gpr, f.cc,
    u16_add, u16_s16]
  rfl

/-- SMR subtracts the word `v` the read delivers. -/
theorem exec_smr : exec (.smr r x i a) s = .next { (memRead (effAddr x i a s) (resolve x i a s).2).2 with
    gpr := s.gpr.set r (s.x r - v)
    cc := { s.cc with
      ov := s.cc.ov || decide (32767 < (s.x r).toInt - v.toInt)
      uf := s.cc.uf || decide ((s.x r).toInt - v.toInt < -32768) } } := by
  have p := resolve_spec h x i a
  have m := memRead_spec p.inv (effAddr x i a s)
  have f := p.frame.trans m.frame
  simp only [exec, execSmr, setOverflow, setUnderflow, State.setGpr, p.ea, m.value, hv, f.x, f.gpr, f.cc,
    u16_sub, u16_s16]
  rfl

end Sums

/-- Settles O48: AMR and SMR are `exec_amr` and `exec_smr`, one read by `memRead_spec` after the resolver's. -/
theorem amrAndSmrAddAndSubtractTheWord : Obligations.AmrAndSmrAddAndSubtractTheWord := by
  unfold Obligations.AmrAndSmrAddAndSubtractTheWord
  intro s r x i a h
  have p := resolve_spec h x i a
  have m := memRead_spec p.inv (effAddr x i a s)
  exact ⟨_, _, exec_amr h r x i a rfl, exec_smr h r x i a rfl, rfl, p.words _, rfl, p.frame.trans m.frame,
    p.words.trans p.frame m.words⟩

/-- Settles O49: the narrowed sum and difference are those of the words, by `u16_add` and `u16_sub`. -/
theorem airAndSirAddAndSubtractTheImmediate : Obligations.AirAndSirAddAndSubtractTheImmediate := by
  unfold Obligations.AirAndSirAddAndSubtractTheImmediate
  intro s r imm
  constructor
  · rw [exec, execAir, u16_add, u16_s16, u16_natCast]
    rfl
  · rw [exec, execSir, u16_sub, u16_s16, u16_natCast]
    rfl

/-! ### Products and quotients (R185, R186, R191) -/

/-- A 32-bit pattern is its high half, signed, and its low half, unsigned. -/
theorem toInt_halves (p : BitVec 32) :
    (p.extractLsb' 16 16).toInt * 65536 + (p.extractLsb' 0 16).toNat = p.toInt := by
  have hp : p.extractLsb' 16 16 ++ p.extractLsb' 0 16 = p := by
    exact (BitVec.extractLsb'_append_extractLsb'_eq_extractLsb' (by omega)).trans BitVec.extractLsb'_eq_self
  have htoInt := BitVec.toInt_append (x := p.extractLsb' 16 16) (y := p.extractLsb' 0 16)
  rw [hp] at htoInt
  rw [htoInt, mul_comm]
  rfl

/-- The 32-bit product is exact (R185). -/
theorem product_toInt (a b : Word) : (product a b).toInt = a.toInt * b.toInt := by
  have hlo : -2 ^ 30 ≤ s16 a * s16 b := BitVec.le_toInt_mul_toInt
  have hhi : s16 a * s16 b ≤ 2 ^ 30 := BitVec.toInt_mul_toInt_le
  exact BitVec.toInt_ofInt_eq_self (by decide) (by omega) (by omega)

theorem pairSecond_of_pair {rx second : Gpr} (h : rx = .r0 ∧ second = .r1 ∨ rx = .r2 ∧ second = .r3) :
    pairSecond rx = some second := by
  obtain ⟨rfl, rfl⟩ | ⟨rfl, rfl⟩ := h <;> rfl

theorem exists_pairSecond {ry : Gpr} (h : ry = .r0 ∨ ry = .r2) : ∃ other, pairSecond ry = some other := by
  obtain rfl | rfl := h
  exacts [⟨_, rfl⟩, ⟨_, rfl⟩]

theorem pairSecond_none {rx ry : Gpr} (h : rx = .r1 ∨ rx = .r3 ∨ ry = .r1 ∨ ry = .r3) :
    pairSecond rx = none ∨ pairSecond ry = none := by
  obtain rfl | rfl | rfl | rfl := h
  exacts [.inl rfl, .inl rfl, .inr rfl, .inr rfl]

/-- Settles O50: the halves of the product are `toInt_halves`, and the product is exact by `product_toInt`. -/
theorem mltGivesTheExactProduct : Obligations.MltGivesTheExactProduct := by
  unfold Obligations.MltGivesTheExactProduct
  intro s rx ry second hx hy
  obtain ⟨other, hy⟩ := exists_pairSecond hy
  exact ⟨_, _, exec_mlt s (pairSecond_of_pair hx) hy, (toInt_halves _).trans (product_toInt _ _)⟩

/-- The remainder of a division toward zero is smaller than the divisor (R186, D25). -/
theorem abs_tmod_lt (a : Int) {b : Int} (hb : b ≠ 0) : |a.tmod b| < |b| := by
  rw [Int.abs_eq_natAbs, Int.abs_eq_natAbs, Int.natAbs_tmod]
  exact_mod_cast Nat.mod_lt _ (Int.natAbs_pos.mpr hb)

/-- The remainder of a division toward zero has the sign of the dividend (R186, D25). -/
theorem tmod_nonpos_of_nonpos {a : Int} (b : Int) (ha : a ≤ 0) : a.tmod b ≤ 0 := by
  have hneg : 0 ≤ (-a).tmod b := Int.tmod_nonneg b (by omega)
  rw [Int.neg_tmod] at hneg
  omega

/-- Settles O51: the quotient and the remainder are `Int.tdiv` and `Int.tmod`. -/
theorem dvdGivesQuotientAndRemainder : Obligations.DvdGivesQuotientAndRemainder := by
  unfold Obligations.DvdGivesQuotientAndRemainder
  intro s rx ry second hx hy
  have hx := pairSecond_of_pair hx
  obtain ⟨other, hy⟩ := exists_pairSecond hy
  refine ⟨fun h0 => exec_dvd_zero s hx hy (by rw [h0]; rfl), fun h0 => ?_⟩
  have hb : (s.x ry).toInt ≠ 0 := fun e => h0 (BitVec.toInt_inj.mp e)
  refine ⟨(s.x rx).toInt.tdiv (s.x ry).toInt, (s.x rx).toInt.tmod (s.x ry).toInt, ?_,
    (Int.tdiv_mul_add_tmod _ _).symm, abs_tmod_lt _ hb, Int.tmod_nonneg _, tmod_nonpos_of_nonpos _⟩
  rw [exec_dvd s hx hy hb, Int.tmod_def, mul_comm (s.x ry).toInt]
  rfl

/-- Settles O52, by `exec_mlt_odd` and `exec_dvd_odd`. -/
theorem oddRegisterPairIsAnError : Obligations.OddRegisterPairIsAnError := by
  unfold Obligations.OddRegisterPairIsAnError
  intro s rx ry h
  exact ⟨exec_mlt_odd s (pairSecond_none h), exec_dvd_odd s (pairSecond_none h)⟩

/-! ### Comparison and logic (R187 to R190) -/

/-- Settles O53: the handler writes the flag alone. -/
theorem trrWritesEqualBothWays : Obligations.TrrWritesEqualBothWays := by
  unfold Obligations.TrrWritesEqualBothWays
  intro s rx ry
  rfl

/-- Settles O54: the operations on words are those on their bits. -/
theorem logicWorksBitByBit : Obligations.LogicWorksBitByBit := by
  unfold Obligations.LogicWorksBitByBit
  intro s rx ry
  refine ⟨_, _, _, rfl, rfl, rfl, fun k hk => ⟨BitVec.getLsbD_and, BitVec.getLsbD_or, ?_⟩⟩
  rw [BitVec.getLsbD_not, decide_eq_true hk, Bool.true_and]

end Sys2Proof.Machine
end

section
/-! PROOFS. R200 to R202: shifts and rotations. R210 to R215: input, output and HLT. -/

namespace Sys2Proof.Machine

/-! ### Shifts and rotations (R200 to R202) -/

/-- Settles O55: what each shift does to the pattern's number, or to its signed value. -/
theorem srcShifts : Obligations.SrcShifts := by
  unfold Obligations.SrcShifts
  intro s r n hn
  refine ⟨s.x r <<< n, s.x r >>> n, (s.x r).sshiftRight n, rfl, rfl, rfl, rfl, ?_, ?_, ?_⟩
  · rw [BitVec.toNat_shiftLeft, Nat.shiftLeft_eq]
  · rw [BitVec.toNat_ushiftRight, Nat.shiftRight_eq_div_pow]
  · rw [BitVec.toInt_sshiftRight, Int.shiftRight_eq_div_pow, Int.fdiv_eq_ediv_of_nonneg _ (by positivity)]
    norm_cast

/-- A rotation is the library's, for the counts of the field (R201). -/
theorem rotateWord_left (v : Word) {n : Nat} (hn : n < 16) : rotateWord .left n v = v.rotateLeft n := by
  rw [BitVec.rotateLeft_def, Nat.mod_eq_of_lt hn, rotateWord]
  split
  · next h0 => subst h0; simp [BitVec.ushiftRight_eq_zero]
  · rfl

theorem rotateWord_right (v : Word) {n : Nat} (hn : n < 16) : rotateWord .right n v = v.rotateRight n := by
  rw [BitVec.rotateRight_def, Nat.mod_eq_of_lt hn, rotateWord]
  split
  · next h0 => subst h0; simp
  · rfl

/-- Rotating left moves bit k to place k + n modulo 16. -/
theorem getLsbD_rotateLeft_add (v : Word) {n k : Nat} (hn : n < 16) (hk : k < 16) :
    (v.rotateLeft n).getLsbD ((k + n) % 16) = v.getLsbD k := by
  rw [BitVec.getLsbD_rotateLeft, Nat.mod_eq_of_lt hn]
  by_cases hwrap : k + n < 16
  · have hle : ¬ k + n < n := by omega
    rw [Nat.mod_eq_of_lt hwrap, decide_eq_false hle, decide_eq_true hwrap, Nat.add_sub_cancel]
    rfl
  · have hmod : (k + n) % 16 = k + n - 16 := by omega
    have hlt : k + n - 16 < n := by omega
    have hback : 16 - n + (k + n - 16) = k := by omega
    rw [hmod, decide_eq_true hlt, hback]
    rfl

/-- Rotating right moves it back. -/
theorem getLsbD_rotateRight_eq (v : Word) {n k : Nat} (hn : n < 16) (hk : k < 16) :
    (v.rotateRight n).getLsbD k = v.getLsbD ((k + n) % 16) := by
  rw [BitVec.getLsbD_rotateRight, Nat.mod_eq_of_lt hn]
  by_cases hwrap : k + n < 16
  · have hlt : k < 16 - n := by omega
    rw [Nat.mod_eq_of_lt hwrap, decide_eq_true hlt, Nat.add_comm]
    rfl
  · have hmod : (k + n) % 16 = k - (16 - n) := by omega
    have hge : ¬ k < 16 - n := by omega
    rw [hmod, decide_eq_false hge, decide_eq_true hk]
    rfl

/-- Settles O56: in either mode the rotated word is `rotateWord`. -/
theorem rrcRotates : Obligations.RrcRotates := by
  unfold Obligations.RrcRotates
  intro s r mode n hn
  refine ⟨_, _, rfl, rfl, fun k hk => ⟨?_, ?_⟩⟩
  · rw [rotateWord_left _ hn, getLsbD_rotateLeft_add _ hn hk]
  · rw [rotateWord_right _ hn, getLsbD_rotateRight_eq _ hn hk]

/-! ### Input, output and HLT (R210 to R213) -/

/-- Settles O57: the handlers draw once and write the register. -/
theorem inAndChkTakeAFreshWord : Obligations.InAndChkTakeAFreshWord := by
  unfold Obligations.InAndChkTakeAFreshWord
  intro s r dev
  exact ⟨rfl, rfl⟩

/-- Settles O58: the handler appends one event. -/
theorem outEmitsOneEvent : Obligations.OutEmitsOneEvent := by
  unfold Obligations.OutEmitsOneEvent
  intro s r dev
  rfl

/-- The fetch overwrites the report (R8, R32). -/
theorem fetch_withReport (s : State) (p : StepReport) : fetch (s.withReport p) = fetch s := by
  rw [fetch, show (s.withReport p).pc = s.pc from rfl, memRead_report]
  rfl

/-- Settles O59: HLT sets the report, which the next fetch overwrites by `fetch_withReport`. -/
theorem hltOnlyReports : Obligations.HltOnlyReports := by
  unfold Obligations.HltOnlyReports
  refine ⟨fun _ => rfl, fun opc s p => ?_⟩
  show stepWith opc (s.withReport p) = stepWith opc s
  rw [stepWith, fetch_withReport]
  rfl

end Sys2Proof.Machine
end
